-- ==== Sys2Proof/Word.lean ====
section
/-! DEFINITION. The one data width of the machine and the fixed addresses of its memory-mapped
registers (spec 00_scope.md R8, R15; 10_state.md R20, R21). -/

namespace Sys2Proof

/-- A byte: the width of every cell, register and operand (R8, R52). Bit 0 is the least significant
(R15); `+` and `-` on it are the `+8` and `-8` of R17. -/
abbrev Byte := BitVec 8

/-- An address of the memory array `M`, 0 to 255 (R20). -/
abbrev Addr := BitVec 8

/-- Register A (R21). -/
abbrev addrA : Addr := 0#8
/-- Register B (R21). -/
abbrev addrB : Addr := 1#8
/-- Register X (R21). -/
abbrev addrX : Addr := 2#8
/-- The program counter (R21, R26). -/
abbrev addrPC : Addr := 3#8
/-- The output latch `OUT` (R32). -/
abbrev addrOUT : Addr := 128#8
/-- The flags byte of A, `F[0]` (R30). -/
abbrev addrFlagsA : Addr := 129#8
/-- The flags byte of B, `F[1]` (R30). -/
abbrev addrFlagsB : Addr := 130#8
/-- The flags byte of X, `F[2]` (R30). -/
abbrev addrFlagsX : Addr := 131#8
/-- The input latch `IN` (R33). -/
abbrev addrIN : Addr := 255#8

/-- The nine addresses of the register map of R21, in its order. -/
def registerMap : List Addr :=
  [addrA, addrB, addrX, addrPC, addrOUT, addrFlagsA, addrFlagsB, addrFlagsX, addrIN]

end Sys2Proof
end

