-- ==== Sys2Proof/Machine/Flags.lean ====
section
/-! DEFINITION. The flag computations of ADD and SUB (spec 45_arith_load_store.md R178, R179). No other
instruction computes a flag (10_state.md R31). -/

namespace Sys2Proof.Machine

/-- `(c << 1) | o`: bit 0 overflow, bit 1 carry, bits 7 to 2 zero (R30). -/
def flagsByte (carry overflow : Bool) : Byte :=
  (0#6 ++ BitVec.ofBool carry ++ BitVec.ofBool overflow : BitVec 8)

/-- A signed result that is no 8-bit two's-complement number. -/
def outOfSigned (z : Int) : Bool := decide (127 < z ∨ z < -128)

/-- Carry of ADD: the unsigned sum exceeds 255. -/
def addCarry (a v : Byte) : Bool := decide (255 < a.toNat + v.toNat)

/-- Overflow of ADD. -/
def addOverflow (a v : Byte) : Bool := outOfSigned (a.toInt + v.toInt)

/-- Carry of SUB: a borrow, `a < v` unsigned. -/
def subBorrow (a v : Byte) : Bool := decide (a.toNat < v.toNat)

/-- Overflow of SUB. -/
def subOverflow (a v : Byte) : Bool := outOfSigned (a.toInt - v.toInt)

/-- The flags byte ADD writes (R178). -/
def addFlags (a v : Byte) : Byte := flagsByte (addCarry a v) (addOverflow a v)

/-- The flags byte SUB writes (R179). -/
def subFlags (a v : Byte) : Byte := flagsByte (subBorrow a v) (subOverflow a v)

end Sys2Proof.Machine
end

