-- ==== Sys2Proof/Config.lean ====
section
/-! DEFINITION. What is fixed for one machine (the parameters of spec 00_scope.md R9 to R13) and the
free values: opaque constants that stand for what the spec leaves open, so that no proof can lean on
a value of theirs. -/

namespace Sys2Proof

/-! ## Names of the front panel -/

/-- The 15 buttons (R241). -/
inductive Button where
  | digit (k : Fin 8)
  | clr
  | disp
  | set
  | read
  | store
  | start
  | stop
deriving DecidableEq, Repr

/-- The display mode (R36, R37): which control indicator is lit. -/
inductive DisplayMode where
  | input
  | address
  | memory
  | run
  | none
deriving DecidableEq, Repr

/-- All buttons, in the order in which D17 lists them. -/
def Button.all : List Button :=
  [.digit 0, .digit 1, .digit 2, .digit 3, .digit 4, .digit 5, .digit 6, .digit 7,
   .clr, .disp, .set, .read, .store, .start, .stop]

/-- The place of a button in `Button.all`. -/
def Button.index : Button → Nat
  | .digit k => k.val
  | .clr => 8
  | .disp => 9
  | .set => 10
  | .read => 11
  | .store => 12
  | .start => 13
  | .stop => 14

/-! ## Parameters -/

/-- The parameter `Hook` of R12: which function the emulator calls on an extension opcode. -/
inductive HookKind where
  /-- The stand-alone emulator's default: a no-op that keeps running (R12). -/
  | standalone
  /-- The controller's hook (R210). -/
  | controller
  /-- A hook of which nothing is known: every call's effect is a free value (93 U3). -/
  | custom
deriving DecidableEq, Repr

/-- The parameters of R9 to R13, constant for the life of the machine (R34). The model holds them in
State as plain data, so that a statement about all states is one about all settings; no step and no
cycle changes them. -/
structure Params where
  /-- `LEGACY_SHIFT` (R9). -/
  legacyShift : Bool
  /-- `LEGACY_PC` (R10). -/
  legacyPc : Bool
  /-- `SYSCALL_OPCODE` (R11). -/
  syscallOpcode : Byte
  /-- `Hook` (R12). -/
  hook : HookKind
  /-- `BTN_BIT` (R246): the logical bit position of each button, in the order of `Button.all`. -/
  btnBit : List Nat
  /-- `CHORD_SCAN` (R256): the order in which held buttons are scanned for a chord partner. -/
  chordScan : List Button
  /-- `TOGGLE_MODE` (R259). -/
  toggleMode : Bool
  /-- `RUN_INTENSITY` (R276). -/
  runIntensity : BitVec 4
deriving DecidableEq, Repr

/-- The defaults of R9 to R13, R246, R256 and R276, with the controller's hook (R301).
DESIGN CHOICE (log 5): `TOGGLE_MODE`, to which the spec gives no default, is false. -/
def Params.default : Params where
  legacyShift := false
  legacyPc := false
  syscallOpcode := 0xF0#8
  hook := .controller
  btnBit := [0, 1, 2, 3, 4, 5, 6, 7, 8, 9, 10, 11, 12, 13, 14]
  chordScan := Button.all
  toggleMode := false
  runIntensity := 0#4

/-- `BTN_BIT(b)` (R246). A place the list does not reach answers 16, which is no bit of the bitmap. -/
def Params.bitOf (p : Params) (b : Button) : Nat := p.btnBit.getD b.index 16

/-- The button at a bit of the bitmap, if there is one. -/
def Params.buttonAt (p : Params) (bit : Nat) : Option Button :=
  Button.all.find? fun b => p.bitOf b == bit

/-! ## Answers of the oracle ports (R243) -/

/-- An answer of the input port (R244): which buttons are held, and which of them are newly pressed. -/
structure Sample where
  state : BitVec 16
  newly : BitVec 16
deriving DecidableEq, Repr, Inhabited

/-- The writes by which an outside answer changes `M`, in order. -/
abbrev Writes := List (Addr × Byte)

/-- An answer of the archival storage port to a slot load (R248): whether the preserve flag is set,
and either "no effect" or the bytes that are restored. -/
structure SlotAnswer where
  preserve : Bool
  restored : Option Writes
deriving DecidableEq, Repr, Inhabited

/-- An answer of the serial port to a load (R265): the first address, how many bytes are stored at
most, and the characters that arrive (up to the end of the stream or the stop button's abort). -/
structure SerialLoad where
  start : Addr
  limit : Nat
  chars : List Byte
deriving DecidableEq, Repr, Inhabited

/-- The address range a dump sends (R263): first address and number of bytes. -/
structure DumpRange where
  start : Addr
  count : Nat
deriving DecidableEq, Repr, Inhabited

/-- What a call of a hook of which nothing is known does (R203, R204, 93 U3, U14). -/
inductive HookAnswer where
  /-- It writes bytes of `M`, in order, and returns `keep`. -/
  | ran (writes : Writes) (keep : Bool)
  /-- It calls `step` or `clear_all_memory`, to which R204 gives no meaning. -/
  | reentered
  /-- It does not return, to which R204 gives no meaning. -/
  | diverged
deriving DecidableEq, Repr, Inhabited

/-- What an `x` does to a value that is pending (R249 leaves it open; log 10). -/
inductive PendingAtX where
  /-- It ends the value, as a delimiter does. -/
  | ends
  /-- The value goes on, with its next digits in base 16. -/
  | goesOn
  /-- The value is dropped. -/
  | dropped
deriving DecidableEq, Repr, Inhabited

/-- Which letters are digits in base 16 (R249 leaves it open; log 10). -/
inductive HexLetters where
  /-- `a` to `f`. -/
  | lower
  /-- `A` to `F`. -/
  | upper
  /-- Both. -/
  | both
deriving DecidableEq, Repr, Inhabited

/-- The points of the inbound serial grammar that R249 leaves open (91 N13). -/
structure SerialRules where
  /-- An `x` switches the base for the rest of the stream, and not for one value only. -/
  baseSticks : Bool
  /-- Where an `x` holds for one value only: a delimiter with no value pending resets the base as well,
  and not only one that ends a value. -/
  bareDelimiterResets : Bool
  /-- What an `x` does to a value that is pending. -/
  atX : PendingAtX
  /-- In base 16 an `e` stops the load and is not the digit 14, where lower-case letters are digits. -/
  hexEStops : Bool
  /-- Which letters are digits in base 16. -/
  hexLetters : HexLetters
  /-- A value that is pending when the load ends is stored: at a stop character, so that `e` and `s` may
  differ, or, for `none`, at the end of what arrives. -/
  endKeepsPending : Option Byte → Bool
  /-- The checksum is over the bytes stored, and not over the bytes parsed. -/
  checksumOfStored : Bool
  /-- The byte count of the summary is over the bytes stored, and not over the bytes parsed. -/
  countOfStored : Bool
  /-- The byte stored for an accumulated value above 255. -/
  wide : Nat → Byte
deriving Inhabited

/-! ## Free values

None has a body. Those that take a `Nat` are applied to the state's draw counter, so that each draw is
a fresh value. -/

/-- `LegacyRot` (R119): the multi-bit rotate of the legacy mode, "about which nothing is known"
(direction left, value, count). Log 4. -/
opaque Config.legacyRot : Bool → Byte → Nat → Byte

/-- `CfgRead(idx)` (R215). Log 7. -/
opaque Config.cfgRead : Nat → BitVec 7 → Byte
/-- `CfgWrite(idx, v)` (R215). Log 7. -/
opaque Config.cfgWrite : Nat → BitVec 7 → Byte → Bool
/-- `sample` (R244). Log 7. -/
opaque Config.sample : Nat → Option Sample
/-- `Sleep(ms)` (R251). Log 7. -/
opaque Config.sleep : Nat → Nat → Bool
/-- `SlotLoad(k, preserve)` (R248). Log 7. -/
opaque Config.slotLoad : Nat → Fin 8 → SlotAnswer
/-- `SlotSave(k)` (R248). Log 7. -/
opaque Config.slotSave : Nat → Fin 8 → Bool
/-- `Canned(k)` (R260). Log 7. -/
opaque Config.canned : Nat → Fin 8 → Writes
/-- The range that the digit of a dump selects (R263). Log 7. -/
opaque Config.dumpRange : Nat → Fin 8 → DumpRange
/-- What arrives on the serial input for a load (R265). Log 7. -/
opaque Config.serialLoad : Nat → Fin 8 → SerialLoad
/-- What a call of an unknown hook does (93 U3). Log 7. -/
opaque Config.hookAnswer : Nat → Byte → HookAnswer

/-- Which of the nine register addresses a slot load with the preserve flag skips (R248, 91 N12). Log 9. -/
opaque Config.slotPreserves : Addr → Bool
/-- The characters from which the newline of a dump is taken (R249, 91 N13): any at all. What a dump
sends is `newlineOf` of them (Machine/Serial), which a load can skip. Log 10. -/
opaque Config.newline : List Byte
/-- The open points of the inbound serial grammar (R249, 91 N13). Log 10. -/
opaque Config.serialRules : SerialRules

end Sys2Proof
end

