-- ==== Sys2Proof/Machine/State.lean ====
section
/-! DEFINITION. The state of the machine as plain data (spec 10_state.md), its reset value (R44), and
the reasons a step can stop. The registers, the flags and the latches are bytes of `mem` and have no
other home (R22). -/

namespace Sys2Proof.Machine

/-- The memory array `M` (R20) as address and byte pairs, addresses strictly rising, zero bytes not
listed: an unlisted address reads as 0, the default `INIT_MEM` of R44. -/
abbrev Memory := List Host.Cell

/-- Answers of the oracle ports (R243) that the outside world has ready, oldest first, one list for
each port. Where a list is empty the answer is a free value of Config, drawn with the counter `drawn`,
which counts such draws. THE MODEL'S OWN (log 7): the outside's side of the ports, not a register. -/
structure Oracle where
  samples : List (Option Sample)
  cfgReads : List Byte
  cfgWrites : List Bool
  sleeps : List Bool
  slotLoads : List SlotAnswer
  slotSaves : List Bool
  canned : List Writes
  dumpRanges : List DumpRange
  serialLoads : List SerialLoad
  hookAnswers : List HookAnswer
  drawn : Nat
deriving DecidableEq, Repr

/-- What the block sends on a port (R242). -/
inductive PortEvent where
  /-- A sample is asked for (R244). -/
  | sample (debounce : Bool)
  /-- A render of one data byte and one control byte (R247). -/
  | render (data control : Byte)
  /-- `CfgRead(idx)` (R215). -/
  | cfgRead (idx : BitVec 7)
  /-- `CfgWrite(idx, v)` (R215). -/
  | cfgWrite (idx : BitVec 7) (v : Byte)
  /-- `SlotLoad(k, preserve)` (R248). -/
  | slotLoad (k : Fin 8) (preserve : Bool)
  /-- `SlotSave(k)` (R248). -/
  | slotSave (k : Fin 8)
  /-- Characters of a dump (R249). -/
  | serialOut (chars : List Byte)
  /-- A load from the serial input is asked for (R265). -/
  | serialLoad (k : Fin 8)
  /-- The final summary of a load: byte count and checksum (R249). DESIGN CHOICE (log 10): R249 leaves
  the summary's format open, and the model sends the two numbers as one event and not as characters. -/
  | serialSummary (count : Nat) (checksum : Byte)
  /-- `Canned(k)` (R260). -/
  | canned (k : Fin 8)
  /-- `Sleep(ms)` (R251). -/
  | sleep (ms : Nat)
  /-- A call of a hook of which nothing is known (R203). -/
  | hookCall (op : Byte)
deriving DecidableEq, Repr

/-- The state. -/
structure State where
  /-- `M` (R20): memory, registers, program counter, flags and latches. -/
  mem : Memory
  /-- The controller's run/halt bit (R36). -/
  run : Bool
  /-- The display mode (R36, R37). -/
  mode : DisplayMode
  /-- The cursor address (R36). -/
  cursor : Addr
  /-- The exponent of the cycle delay, or never set (R36). -/
  delay : Option (BitVec 4)
  /-- The data byte the next render sends (R38). -/
  disp : Byte
  /-- The parameters, the two configuration flags among them (R34); constant. -/
  params : Params
  /-- The keep-running result of the latest step (R201). THE MODEL'S OWN (log 6): the spec returns it
  from `step`; no step reads it. -/
  keep : Bool
  /-- The outside world's answers (R243). THE MODEL'S OWN (log 7). -/
  oracle : Oracle
  /-- What the block has sent on its ports, newest first (R242). THE MODEL'S OWN (log 8): no step and no
  cycle reads it. -/
  sent : List PortEvent
deriving DecidableEq, Repr

/-- Why the machine stops with a fault: never. "The hardware raises no synchronous exception" (R200) and
there is no fault in 93_implementation_defined.md either, so the type has no constructor. -/
inductive Fault where
deriving DecidableEq, Repr

/-- Why the model gives an instruction no next state. -/
inductive Refusal where
  /-- An instruction without a meaning in the model, by its mnemonic. No arm of `exec` uses it. Safe. -/
  | notModelled (mnemonic : String)
  /-- `LEGACY_PC` is true (R10: "the model has no meaning for any instruction and refuses"). Raised by
  every instruction through `State.complete`. Safe. -/
  | legacyPcTiming
  /-- A hook of which nothing is known called `step` or `clear_all_memory` (R204: "a model gives such a
  hook no meaning (refuses)"). Raised by EXT1 and EXT2. Safe. -/
  | hookReentered
  /-- A hook of which nothing is known did not return (R204: "It must terminate", 93 U14). Raised by EXT1
  and EXT2. Safe. -/
  | hookDiverged
deriving DecidableEq, Repr

/-- No answer is waiting at any port. -/
def Oracle.empty : Oracle where
  samples := []
  cfgReads := []
  cfgWrites := []
  sleeps := []
  slotLoads := []
  slotSaves := []
  canned := []
  dumpRanges := []
  serialLoads := []
  hookAnswers := []
  drawn := 0

/-- The reset parameters of R13: `INIT_MEM`, `INIT_MODE`, `INIT_CURSOR`, `INIT_DELAY`, `INIT_DISP`. -/
structure Init where
  mem : Memory
  mode : DisplayMode
  cursor : Addr
  delay : Option (BitVec 4)
  disp : Byte
deriving DecidableEq, Repr

/-- Their defaults (R44). -/
def Init.default : Init where
  mem := []
  mode := .none
  cursor := 0#8
  delay := none
  disp := 0#8

/-- The state right after reset, for given reset parameters and parameters (R44, R301): halted. `keep`
is true, no answer is waiting and nothing has been sent (DESIGN CHOICE, logs 6 to 8). -/
def State.init (i : Init) (p : Params) : State where
  mem := i.mem
  run := false
  mode := i.mode
  cursor := i.cursor
  delay := i.delay
  disp := i.disp
  params := p
  keep := true
  oracle := Oracle.empty
  sent := []

/-- The state right after reset with every parameter at its default (R44, R301). -/
def State.reset : State := State.init Init.default Params.default

end Sys2Proof.Machine
end

