-- ==== Sys2Proof/Machine/Memory.lean ====
section
/-! DEFINITION. Reading and writing one byte of the memory list. The only access width is one byte
(spec 20_memory.md R52), no access faults (R50) and none has a further side effect (R55). -/

namespace Sys2Proof.Machine

/-- What an address that the list does not hold reads as (R44: `INIT_MEM` defaults to all zero). -/
def Memory.unlisted : Byte := 0#8

/-- The byte at an address. -/
def Memory.read : Memory → Nat → Byte
  | [], _ => Memory.unlisted
  | c :: rest, a => if c.1 = a then c.2 else Memory.read rest a

/-- Put a cell before the first cell with a higher address. -/
def Memory.insert (c : Host.Cell) : Memory → Memory
  | [] => [c]
  | d :: rest => if c.1 < d.1 then c :: d :: rest else d :: Memory.insert c rest

/-- Drop every cell of an address. -/
def Memory.erase (m : Memory) (a : Nat) : Memory := m.filter fun c => c.1 != a

/-- Store a byte at an address: the old cell goes, and a new one comes unless the byte is what an
unlisted address reads as. -/
def Memory.write (m : Memory) (a : Nat) (v : Byte) : Memory :=
  if v = Memory.unlisted then Memory.erase m a else Memory.insert (a, v) (Memory.erase m a)

/-- Store several bytes, in order. -/
def Memory.writeAll (m : Memory) : Writes → Memory
  | [] => m
  | w :: rest => Memory.writeAll (Memory.write m w.1.toNat w.2) rest

/-- The addresses rise strictly from above `low`, all are in the array, and no cell holds what an
unlisted address reads as. -/
def Memory.wfFrom : Nat → Memory → Bool
  | _, [] => true
  | low, c :: rest =>
    decide (low ≤ c.1) && decide (c.1 < 256) && c.2 != Memory.unlisted &&
    Memory.wfFrom (c.1 + 1) rest

/-- The canonical form: equal memories are equal lists. -/
def Memory.wf (m : Memory) : Bool := Memory.wfFrom 0 m

end Sys2Proof.Machine
end

