-- ==== Sys2Proof/Syntax.lean ====
section
/-! DEFINITION. The instructions: one constructor for each mnemonic of spec/opcode_table.json
(spec 30_encoding.md R70 to R87). Several rows of the table are one instruction (R87). -/

namespace Sys2Proof

/-- A general register (R24): the LHS of the arithmetic class, the test register of a jump. -/
inductive Reg where
  | a
  | b
  | x
deriving DecidableEq, Repr

/-- A register a shift or rotate can name (R111): X cannot be an operand. -/
inductive ShiftReg where
  | a
  | b
deriving DecidableEq, Repr

/-- The addressing modes 3 to 7 (R75). -/
inductive AddrMode where
  /-- Mode 3, constant or immediate, `#v`. -/
  | imm
  /-- Mode 4, direct memory, `m`. -/
  | mem
  /-- Mode 5, indirect, `(m)`. -/
  | ind
  /-- Mode 6, indexed by X, `m+X`. -/
  | idx
  /-- Mode 7, indirect-indexed, `(m)+X`. -/
  | indIdx
deriving DecidableEq, Repr

/-- The jump conditions (R143). -/
inductive Cond where
  | ne
  | eq
  | lt
  | ge
  | gt
deriving DecidableEq, Repr

/-- What a jump tests (R142): a register against zero, or nothing. The unconditional form keeps its
ignored condition field, which R80 writes `UNC[k]`. -/
inductive JumpTest where
  | reg (r : Reg) (cc : Cond)
  | always (k : Cond)
deriving DecidableEq, Repr

/-- The 23 instructions. A last argument `opnd` is the operand byte. -/
inductive Instr where
  /-- HALT (R101). `ign` is the ignored field `op[6:3]`. -/
  | halt (ign : BitVec 4)
  /-- NOP (R102). `ign` is the ignored bit `op[6]`. -/
  | nop (ign : BitVec 1)
  /-- EXT1 (R103): one of the 14 opcodes of R82. -/
  | ext1 (op : Byte)
  /-- SFTR, shift right arithmetic (R115); the count is 1 to 4. -/
  | sftr (r : ShiftReg) (count : Nat)
  /-- ROTR, rotate right (R116). -/
  | rotr (r : ShiftReg) (count : Nat)
  /-- SFTL, shift left (R113). -/
  | sftl (r : ShiftReg) (count : Nat)
  /-- ROTL, rotate left (R114). -/
  | rotl (r : ShiftReg) (count : Nat)
  /-- SET0, clear bit `bit` of the byte at `opnd` (R127). -/
  | set0 (bit : BitVec 3) (opnd : Byte)
  /-- SET1, set a bit (R128). -/
  | set1 (bit : BitVec 3) (opnd : Byte)
  /-- SKP0, skip if a bit is 0 (R129). -/
  | skp0 (bit : BitVec 3) (opnd : Byte)
  /-- SKP1, skip if a bit is 1 (R130). -/
  | skp1 (bit : BitVec 3) (opnd : Byte)
  /-- JPD, jump direct (R148). -/
  | jpd (test : JumpTest) (opnd : Byte)
  /-- JPI, jump indirect (R149). -/
  | jpi (test : JumpTest) (opnd : Byte)
  /-- JMD, jump-and-mark direct (R151). -/
  | jmd (test : JumpTest) (opnd : Byte)
  /-- JMI, jump-and-mark indirect (R152). -/
  | jmi (test : JumpTest) (opnd : Byte)
  /-- OR into A (R162). -/
  | or (mode : AddrMode) (opnd : Byte)
  /-- EXT2, the two-byte extension opcode (R165). -/
  | ext2 (mode : AddrMode) (opnd : Byte)
  /-- AND into A (R163). -/
  | and (mode : AddrMode) (opnd : Byte)
  /-- LNEG, load negative into A (R164). -/
  | lneg (mode : AddrMode) (opnd : Byte)
  /-- ADD (R178). -/
  | add (r : Reg) (mode : AddrMode) (opnd : Byte)
  /-- SUB (R179). -/
  | sub (r : Reg) (mode : AddrMode) (opnd : Byte)
  /-- LOAD (R180). -/
  | load (r : Reg) (mode : AddrMode) (opnd : Byte)
  /-- STORE (R181). -/
  | store (r : Reg) (mode : AddrMode) (opnd : Byte)
deriving DecidableEq, Repr

end Sys2Proof
end

