-- ==== Sys2Proof/Machine/Ops.lean ====
section
/-! DEFINITION. The named operations over State: updates, registers, the end of every instruction (the
deferred advance), and the draws from the oracle ports. -/

namespace Sys2Proof.Machine

/-- The outcome of a step or a cycle. -/
abbrev Result := Host.Outcome State Fault Refusal

/-- Go on from a next state; a fault or a refusal stays. -/
def andThen (o : Result) (f : State → Result) : Result :=
  match o with
  | .next s => f s
  | .fault r => .fault r
  | .refused r => .refused r

/-! ## Updates -/

/-- `MemRead(a, 1)` (R17), which is also the host port's `read(addr)` (R65). -/
def State.memRead (s : State) (a : Addr) : Byte := Memory.read s.mem a.toNat

/-- `MemWrite(a, 1, v)` (R17), which is also the host port's `write(addr, value)` (R65). -/
def State.memWrite (s : State) (a : Addr) (v : Byte) : State :=
  { s with mem := Memory.write s.mem a.toNat v }

/-- Several stores, in order: what an outside answer does to `M`. -/
def State.memWriteAll (s : State) (ws : Writes) : State :=
  { s with mem := Memory.writeAll s.mem ws }

/-- `clear_all_memory()`: "zero-fills all 256 bytes" (R65). -/
def State.clearAllMemory (s : State) : State := { s with mem := [] }

def State.withRun (s : State) (v : Bool) : State := { s with run := v }
def State.withMode (s : State) (v : DisplayMode) : State := { s with mode := v }
def State.withCursor (s : State) (v : Addr) : State := { s with cursor := v }
def State.withDelay (s : State) (v : Option (BitVec 4)) : State := { s with delay := v }
def State.withDisp (s : State) (v : Byte) : State := { s with disp := v }
def State.withKeep (s : State) (v : Bool) : State := { s with keep := v }
def State.withOracle (s : State) (v : Oracle) : State := { s with oracle := v }

/-- Send on a port. -/
def State.emit (s : State) (e : PortEvent) : State := { s with sent := e :: s.sent }

/-- The launch state of R303: what an auto-run layer may leave before the first cycle, any `M` and
either value of `run`. -/
def State.launch (s : State) (m : Memory) (run : Bool) : State := { s with mem := m, run := run }

/-! ## Registers (R21) -/

/-- The address of a general register: `fP` itself (R176). -/
def Reg.addr : Reg → Addr
  | .a => addrA
  | .b => addrB
  | .x => addrX

/-- The address of a general register's flags byte, `129 + fP` (R176). -/
def Reg.flagsAddr : Reg → Addr
  | .a => addrFlagsA
  | .b => addrFlagsB
  | .x => addrFlagsX

/-- The address of a shift's register, `op[5]` (R111). -/
def ShiftReg.addr : ShiftReg → Addr
  | .a => addrA
  | .b => addrB

/-- The program counter (R26). -/
def State.pc (s : State) : Addr := s.memRead addrPC

/-- A general register (R24). -/
def State.reg (s : State) (r : Reg) : Byte := s.memRead (Reg.addr r)

/-! ## The end of every instruction -/

/-- The deferred advance of R27: `MemWrite(3, 1, MemRead(3, 1) +8 n)`, added to whatever the body left
at address 3. -/
def State.advance (s : State) (n : Byte) : State := s.memWrite addrPC (s.memRead addrPC + n)

/-- The end of an instruction whose body is done: the deferred advance by `n`, and the keep-running
result. With `LEGACY_PC` true the update of the program counter is unknown and every instruction is
refused (R10). -/
def State.complete (s : State) (n : Byte) (keep : Bool) : Result :=
  if s.params.legacyPc then .refused .legacyPcTiming else .next ((s.advance n).withKeep keep)

/-! ## Draws from the oracle ports

Each answers the oldest answer that is waiting, and a free value where none is (log 7). -/

/-- `CfgRead(idx)` (R215). -/
def State.askCfgRead (s : State) (idx : BitVec 7) : Byte × State :=
  let s := s.emit (.cfgRead idx)
  match s.oracle.cfgReads with
  | v :: rest => (v, s.withOracle { s.oracle with cfgReads := rest })
  | [] => (Config.cfgRead s.oracle.drawn idx,
      s.withOracle { s.oracle with drawn := s.oracle.drawn + 1 })

/-- `CfgWrite(idx, v)` (R215); the delay item's abortable sleep answers through it too (R216). -/
def State.askCfgWrite (s : State) (idx : BitVec 7) (v : Byte) : Bool × State :=
  let s := s.emit (.cfgWrite idx v)
  match s.oracle.cfgWrites with
  | ok :: rest => (ok, s.withOracle { s.oracle with cfgWrites := rest })
  | [] => (Config.cfgWrite s.oracle.drawn idx v,
      s.withOracle { s.oracle with drawn := s.oracle.drawn + 1 })

/-- `Sleep(ms)` (R251): false when the stop button was seen. -/
def State.askSleep (s : State) (ms : Nat) : Bool × State :=
  let s := s.emit (.sleep ms)
  match s.oracle.sleeps with
  | ok :: rest => (ok, s.withOracle { s.oracle with sleeps := rest })
  | [] => (Config.sleep s.oracle.drawn ms,
      s.withOracle { s.oracle with drawn := s.oracle.drawn + 1 })

/-- `sample(debounce)` (R244). -/
def State.askSample (s : State) (debounce : Bool) : Option Sample × State :=
  let s := s.emit (.sample debounce)
  match s.oracle.samples with
  | v :: rest => (v, s.withOracle { s.oracle with samples := rest })
  | [] => (Config.sample s.oracle.drawn,
      s.withOracle { s.oracle with drawn := s.oracle.drawn + 1 })

/-- `SlotLoad(k, preserve)` (R248). -/
def State.askSlotLoad (s : State) (k : Fin 8) : SlotAnswer × State :=
  match s.oracle.slotLoads with
  | v :: rest =>
    (v, (s.emit (.slotLoad k v.preserve)).withOracle { s.oracle with slotLoads := rest })
  | [] =>
    (Config.slotLoad s.oracle.drawn k,
      (s.emit (.slotLoad k (Config.slotLoad s.oracle.drawn k).preserve)).withOracle
        { s.oracle with drawn := s.oracle.drawn + 1 })

/-- `SlotSave(k)` (R248). -/
def State.askSlotSave (s : State) (k : Fin 8) : Bool × State :=
  let s := s.emit (.slotSave k)
  match s.oracle.slotSaves with
  | ok :: rest => (ok, s.withOracle { s.oracle with slotSaves := rest })
  | [] => (Config.slotSave s.oracle.drawn k,
      s.withOracle { s.oracle with drawn := s.oracle.drawn + 1 })

/-- `Canned(k)` (R260). -/
def State.askCanned (s : State) (k : Fin 8) : Writes × State :=
  let s := s.emit (.canned k)
  match s.oracle.canned with
  | v :: rest => (v, s.withOracle { s.oracle with canned := rest })
  | [] => (Config.canned s.oracle.drawn k,
      s.withOracle { s.oracle with drawn := s.oracle.drawn + 1 })

/-- The range that digit `k` selects for a dump (R263). -/
def State.askDumpRange (s : State) (k : Fin 8) : DumpRange × State :=
  match s.oracle.dumpRanges with
  | v :: rest => (v, s.withOracle { s.oracle with dumpRanges := rest })
  | [] => (Config.dumpRange s.oracle.drawn k,
      s.withOracle { s.oracle with drawn := s.oracle.drawn + 1 })

/-- What arrives for a serial load (R265). -/
def State.askSerialLoad (s : State) (k : Fin 8) : SerialLoad × State :=
  let s := s.emit (.serialLoad k)
  match s.oracle.serialLoads with
  | v :: rest => (v, s.withOracle { s.oracle with serialLoads := rest })
  | [] => (Config.serialLoad s.oracle.drawn k,
      s.withOracle { s.oracle with drawn := s.oracle.drawn + 1 })

/-- What a call of a hook of which nothing is known does (R203, 93 U3). -/
def State.askHook (s : State) (op : Byte) : HookAnswer × State :=
  let s := s.emit (.hookCall op)
  match s.oracle.hookAnswers with
  | v :: rest => (v, s.withOracle { s.oracle with hookAnswers := rest })
  | [] => (Config.hookAnswer s.oracle.drawn op,
      s.withOracle { s.oracle with drawn := s.oracle.drawn + 1 })

end Sys2Proof.Machine
end

