-- ==== Sys2Proof/Machine/Operands.lean ====
section
/-! DEFINITION. Operand locations and values (spec 30_encoding.md R75 to R78) and the tests and targets
of jumps (43_jumps.md R142 to R144). -/

namespace Sys2Proof.Machine

/-- The operand location `EA(mode)` of R76, with `p` the program counter and `opnd` the operand byte.
Every sum wraps modulo 256. -/
def ea (s : State) (mode : AddrMode) (opnd : Byte) : Addr :=
  match mode with
  | .imm => s.pc + 1#8
  | .mem => opnd
  | .ind => s.memRead opnd
  | .idx => opnd + s.memRead addrX
  | .indIdx => s.memRead opnd + s.memRead addrX

/-- The operand value `M[EA(mode)]` of R77. -/
def operandValue (s : State) (mode : AddrMode) (opnd : Byte) : Byte :=
  s.memRead (ea s mode opnd)

/-- The condition predicates of R143 on a byte. -/
def Cond.holds : Cond → Byte → Bool
  | .ne, t => t != 0#8
  | .eq, t => t == 0#8
  | .lt, t => t.msb
  | .ge, t => !t.msb
  | .gt, t => !t.msb && t != 0#8

/-- Whether a jump is taken (R142): `fP = 3` reads no register and is always taken. -/
def taken (s : State) : JumpTest → Bool
  | .reg r cc => Cond.holds cc (s.reg r)
  | .always _ => true

/-- The target of JPD and JMD (R144): the operand byte. -/
def directTarget (opnd : Byte) : Addr := opnd

/-- The target of JPI and JMI (R144): the byte at the operand address. -/
def indirectTarget (s : State) (opnd : Byte) : Addr := s.memRead opnd

/-- `mask = 1 << fQ` (R126). -/
def bitMask (bit : BitVec 3) : Byte := 1#8 <<< bit.toNat

end Sys2Proof.Machine
end

