-- ==== Sys2Proof/Machine/Arith.lean ====
section
/-! DEFINITION. ADD, SUB, LOAD and STORE (spec 45_arith_load_store.md). -/

namespace Sys2Proof.Machine

/-- Write a result to the LHS register and then its whole flags byte (R60 item 7, R176). -/
def resultWithFlags (r : Reg) (res flags : Byte) (s : State) : Result :=
  ((s.memWrite (Reg.addr r) res).memWrite (Reg.flagsAddr r) flags).complete 2#8 true

/-- ADD (R178). -/
def execAdd (r : Reg) (mode : AddrMode) (opnd : Byte) (s : State) : Result :=
  let a := s.reg r
  let v := operandValue s mode opnd
  resultWithFlags r (a + v) (addFlags a v) s

/-- SUB (R179). -/
def execSub (r : Reg) (mode : AddrMode) (opnd : Byte) (s : State) : Result :=
  let a := s.reg r
  let v := operandValue s mode opnd
  resultWithFlags r (a - v) (subFlags a v) s

/-- LOAD (R180). -/
def execLoad (r : Reg) (mode : AddrMode) (opnd : Byte) (s : State) : Result :=
  (s.memWrite (Reg.addr r) (operandValue s mode opnd)).complete 2#8 true

/-- STORE (R181). -/
def execStore (r : Reg) (mode : AddrMode) (opnd : Byte) (s : State) : Result :=
  (s.memWrite (ea s mode opnd) (s.reg r)).complete 2#8 true

end Sys2Proof.Machine
end

