-- ==== Sys2Proof/Machine/Bits.lean ====
section
/-! DEFINITION. Bit set, clear and skip (spec 42_bit_ops.md). -/

namespace Sys2Proof.Machine

/-- The tested bit is 1: `(v & mask) != 0`. -/
def bitIsSet (bit : BitVec 3) (v : Byte) : Bool := v &&& bitMask bit != 0#8

/-- Read, change and write the byte at the operand address. -/
def setBitWith (opnd : Byte) (f : Byte → Byte) (s : State) : Result :=
  (s.memWrite opnd (f (s.memRead opnd))).complete 2#8 true

/-- The skip of R131: a true test adds 2 to the byte count. -/
def skipIf (test : Bool) (s : State) : Result :=
  s.complete (if test then 4#8 else 2#8) true

/-- SET0 (R127). -/
def execSet0 (bit : BitVec 3) (opnd : Byte) (s : State) : Result :=
  setBitWith opnd (fun v => v &&& ~~~ bitMask bit) s

/-- SET1 (R128). -/
def execSet1 (bit : BitVec 3) (opnd : Byte) (s : State) : Result :=
  setBitWith opnd (fun v => v ||| bitMask bit) s

/-- SKP0 (R129): skip when the bit is 0. -/
def execSkp0 (bit : BitVec 3) (opnd : Byte) (s : State) : Result :=
  skipIf (!bitIsSet bit (s.memRead opnd)) s

/-- SKP1 (R130): skip when the bit is 1. -/
def execSkp1 (bit : BitVec 3) (opnd : Byte) (s : State) : Result :=
  skipIf (bitIsSet bit (s.memRead opnd)) s

end Sys2Proof.Machine
end

