-- ==== Sys2Proof/Machine/Control.lean ====
section
/-! DEFINITION. HALT and NOP (spec 40_halt_nop_ext.md). -/

namespace Sys2Proof.Machine

/-- HALT (R101): the program counter advances by 1 and the step returns false. -/
def execHalt (_ign : BitVec 4) (s : State) : Result := s.complete 1#8 false

/-- NOP (R102). -/
def execNop (_ign : BitVec 1) (s : State) : Result := s.complete 1#8 true

end Sys2Proof.Machine
end

