-- ==== Sys2Proof/WellFormed.lean ====
section
/-! DEFINITION. Which instruction terms the encoding can express, and which settings of the
parameters are legal. -/

namespace Sys2Proof

/-- The 14 EXT1 opcodes: `fR = 0`, `fP` in 2 and 3, `fQ` not 0 (R82). -/
def isExt1Opcode (op : Byte) : Bool :=
  op.extractLsb' 0 3 == 0#3 && op.getLsbD 7 && op.extractLsb' 3 3 != 0#3

/-- The 5 EXT2 opcodes: `fP = 3`, `fQ = 1`, `fR` from 3 (R82). -/
def isExt2Opcode (op : Byte) : Bool :=
  op.extractLsb' 3 5 == 0b11001#5 && decide (3#3 ≤ op.extractLsb' 0 3)

/-- The 19 hook opcodes (R82). -/
def isHookOpcode (op : Byte) : Bool := isExt1Opcode op || isExt2Opcode op

/-- A shift count the encoding can express: 1 to 4 (R111). -/
def countOk (count : Nat) : Bool := decide (1 ≤ count ∧ count ≤ 4)

/-- The instruction is one the encoding can express. Every other field has a type that holds exactly
the values its bits can take. -/
def Instr.wf : Instr → Bool
  | .halt _ => true
  | .nop _ => true
  | .ext1 op => isExt1Opcode op
  | .sftr _ count => countOk count
  | .rotr _ count => countOk count
  | .sftl _ count => countOk count
  | .rotl _ count => countOk count
  | .set0 _ _ => true
  | .set1 _ _ => true
  | .skp0 _ _ => true
  | .skp1 _ _ => true
  | .jpd _ _ => true
  | .jpi _ _ => true
  | .jmd _ _ => true
  | .jmi _ _ => true
  | .or _ _ => true
  | .ext2 _ _ => true
  | .and _ _ => true
  | .lneg _ _ => true
  | .add _ _ _ => true
  | .sub _ _ _ => true
  | .load _ _ _ => true
  | .store _ _ _ => true

/-- The parameters are legal: `SYSCALL_OPCODE` is a hook opcode (R11), `BTN_BIT` is injective into 0 to
15 (R246), and `CHORD_SCAN` is an order of the 15 buttons (R256). -/
def Params.wf (p : Params) : Bool :=
  isHookOpcode p.syscallOpcode &&
  p.btnBit.length == 15 && p.btnBit.all (· < 16) && decide p.btnBit.Nodup &&
  Button.all.all p.chordScan.contains && decide p.chordScan.Nodup

end Sys2Proof
end

