-- ==== Sys2Proof/Decode.lean ====
section
/-! DEFINITION. The decoder and, after it, the encoder (spec 30_encoding.md). Every opcode value is
assigned (R81), so the decoder is total; from a list of bytes it refuses, by name, only a list that
ends before the instruction does. -/

namespace Sys2Proof

/-! ## Fields (R70) -/

/-- `fP = op[7:6]`. -/
def fieldP (op : Byte) : BitVec 2 := op.extractLsb' 6 2
/-- `fQ = op[5:3]`. -/
def fieldQ (op : Byte) : BitVec 3 := op.extractLsb' 3 3
/-- `fR = op[2:0]`. -/
def fieldR (op : Byte) : BitVec 3 := op.extractLsb' 0 3

/-- The length of an instruction, told from its opcode byte alone (R72). -/
def opcodeLength (op : Byte) : Nat := if fieldR op ≤ 1#3 then 1 else 2

/-! ## Operand fields (R75, R78) -/

/-- Test register or LHS from `fP`: 0 = A, 1 = B, 2 = X. -/
def Reg.ofField (p : BitVec 2) : Reg :=
  if p = 0#2 then .a else if p = 1#2 then .b else .x

/-- Shift register from `op[5]`: 0 = A, 1 = B. -/
def ShiftReg.ofField (r : BitVec 1) : ShiftReg := if r = 0#1 then .a else .b

/-- Shift count from `op[4:3]`, with 0 meaning 4. -/
def countOfField (cc : BitVec 2) : Nat := if cc = 0#2 then 4 else cc.toNat

/-- Addressing mode from `fR` 3 to 7. -/
def AddrMode.ofField (r : BitVec 3) : AddrMode :=
  if r = 3#3 then .imm else if r = 4#3 then .mem else if r = 5#3 then .ind
  else if r = 6#3 then .idx else .indIdx

/-- Jump condition from `fR` 3 to 7 (R143). -/
def Cond.ofField (r : BitVec 3) : Cond :=
  if r = 3#3 then .ne else if r = 4#3 then .eq else if r = 5#3 then .lt
  else if r = 6#3 then .ge else .gt

/-- The jump's test from `fP` and `fR`: `fP = 3` is unconditional (R142). -/
def JumpTest.ofFields (p : BitVec 2) (r : BitVec 3) : JumpTest :=
  if p = 3#2 then .always (Cond.ofField r) else .reg (Reg.ofField p) (Cond.ofField r)

/-! ## The six classes -/

/-- `fR = 0` (R100). -/
def decodeOneByte (op : Byte) : Instr :=
  if op.getLsbD 7 = false then .halt (op.extractLsb' 3 4)
  else if fieldQ op = 0#3 then .nop (op.extractLsb' 6 1)
  else .ext1 op

/-- `fR = 1` (R110). -/
def decodeShift (op : Byte) : Instr :=
  let r := ShiftReg.ofField (op.extractLsb' 5 1)
  let count := countOfField (op.extractLsb' 3 2)
  if fieldP op = 0#2 then .sftr r count
  else if fieldP op = 1#2 then .rotr r count
  else if fieldP op = 2#2 then .sftl r count
  else .rotl r count

/-- `fR = 2` (R125). -/
def decodeBit (op opnd : Byte) : Instr :=
  if fieldP op = 0#2 then .set0 (fieldQ op) opnd
  else if fieldP op = 1#2 then .set1 (fieldQ op) opnd
  else if fieldP op = 2#2 then .skp0 (fieldQ op) opnd
  else .skp1 (fieldQ op) opnd

/-- `fR` from 3, `fQ` from 4 (R140). -/
def decodeJump (op opnd : Byte) : Instr :=
  let test := JumpTest.ofFields (fieldP op) (fieldR op)
  if fieldQ op = 4#3 then .jpd test opnd
  else if fieldQ op = 5#3 then .jpi test opnd
  else if fieldQ op = 6#3 then .jmd test opnd
  else .jmi test opnd

/-- `fR` from 3, `fQ` to 3, `fP = 3` (R160). -/
def decodeLogic (op opnd : Byte) : Instr :=
  let mode := AddrMode.ofField (fieldR op)
  if fieldQ op = 0#3 then .or mode opnd
  else if fieldQ op = 1#3 then .ext2 mode opnd
  else if fieldQ op = 2#3 then .and mode opnd
  else .lneg mode opnd

/-- `fR` from 3, `fQ` to 3, `fP` to 2 (R175). -/
def decodeArith (op opnd : Byte) : Instr :=
  let r := Reg.ofField (fieldP op)
  let mode := AddrMode.ofField (fieldR op)
  if fieldQ op = 0#3 then .add r mode opnd
  else if fieldQ op = 1#3 then .sub r mode opnd
  else if fieldQ op = 2#3 then .load r mode opnd
  else .store r mode opnd

/-- The decode priority of R74, on the opcode byte and the operand byte (which the one-byte classes
do not look at). -/
def decodeBytes (op opnd : Byte) : Instr :=
  if fieldR op = 0#3 then decodeOneByte op
  else if fieldR op = 1#3 then decodeShift op
  else if fieldR op = 2#3 then decodeBit op opnd
  else if 4#3 ≤ fieldQ op then decodeJump op opnd
  else if fieldP op = 3#2 then decodeLogic op opnd
  else decodeArith op opnd

/-- Why a list of bytes is no instruction. -/
inductive DecodeError where
  /-- There is no byte at all. -/
  | noOpcode
  /-- The opcode needs an operand byte and the list ends (R71). -/
  | noOperand (op : Byte)
deriving DecidableEq, Repr

/-- Decode the first instruction of a list of bytes and return it with the rest of the list. -/
def decode : List Byte → Except DecodeError (Instr × List Byte)
  | [] => .error .noOpcode
  | op :: rest =>
    if opcodeLength op = 1 then .ok (decodeBytes op 0#8, rest)
    else
      match rest with
      | [] => .error (.noOperand op)
      | opnd :: rest => .ok (decodeBytes op opnd, rest)

/-- The bytes of an instruction whose bits are numbered as spec/opcode_table.json numbers them: bit 0 is
bit 0 of the opcode byte, bit 8 is bit 0 of the operand byte. Bits from `nbits` on are 0. -/
def tableBytes (nbits w : Nat) : List Byte :=
  let v := w % 2 ^ nbits
  [BitVec.ofNat 8 v, BitVec.ofNat 8 (v / 256)]

/-- The instruction the decoder reads from an instruction whose bits are `w`. -/
def decodeTableWord (nbits w : Nat) : Option Instr :=
  match decode (tableBytes nbits w) with
  | .ok (i, _) => some i
  | .error _ => none

/-! ## The encoder -/

/-- `op = fP * 64 + fQ * 8 + fR` (R70). -/
def opcodeOf (p : BitVec 2) (q r : BitVec 3) : Byte := p ++ q ++ r

/-- `fP` of a register (R78). -/
def Reg.field : Reg → BitVec 2
  | .a => 0#2
  | .b => 1#2
  | .x => 2#2

/-- `op[5]` of a shift register (R78). -/
def ShiftReg.field : ShiftReg → BitVec 1
  | .a => 0#1
  | .b => 1#1

/-- The count field: `c mod 4` (R85). -/
def countField (count : Nat) : BitVec 2 := BitVec.ofNat 2 count

/-- The number of an addressing mode (R75). -/
def AddrMode.field : AddrMode → BitVec 3
  | .imm => 3#3
  | .mem => 4#3
  | .ind => 5#3
  | .idx => 6#3
  | .indIdx => 7#3

/-- The number of a condition (R143). -/
def Cond.field : Cond → BitVec 3
  | .ne => 3#3
  | .eq => 4#3
  | .lt => 5#3
  | .ge => 6#3
  | .gt => 7#3

/-- `fP` of a jump's test. -/
def JumpTest.fieldP : JumpTest → BitVec 2
  | .reg r _ => r.field
  | .always _ => 3#2

/-- `fR` of a jump's test. -/
def JumpTest.fieldR : JumpTest → BitVec 3
  | .reg _ cc => cc.field
  | .always k => k.field

/-- The opcode byte of a shift: `fQ` is the register's bit and the count field (R85). -/
def shiftOpcode (p : BitVec 2) (r : ShiftReg) (count : Nat) : Byte :=
  opcodeOf p (r.field ++ countField count) 1#3

/-- The opcode byte of an instruction (R80, R85). -/
def Instr.opcode : Instr → Byte
  | .halt ign => (0#1 ++ ign ++ 0#3 : BitVec 8)
  | .nop ign => (1#1 ++ ign ++ 0#6 : BitVec 8)
  | .ext1 op => op
  | .sftr r count => shiftOpcode 0#2 r count
  | .rotr r count => shiftOpcode 1#2 r count
  | .sftl r count => shiftOpcode 2#2 r count
  | .rotl r count => shiftOpcode 3#2 r count
  | .set0 bit _ => opcodeOf 0#2 bit 2#3
  | .set1 bit _ => opcodeOf 1#2 bit 2#3
  | .skp0 bit _ => opcodeOf 2#2 bit 2#3
  | .skp1 bit _ => opcodeOf 3#2 bit 2#3
  | .jpd test _ => opcodeOf test.fieldP 4#3 test.fieldR
  | .jpi test _ => opcodeOf test.fieldP 5#3 test.fieldR
  | .jmd test _ => opcodeOf test.fieldP 6#3 test.fieldR
  | .jmi test _ => opcodeOf test.fieldP 7#3 test.fieldR
  | .or mode _ => opcodeOf 3#2 0#3 mode.field
  | .ext2 mode _ => opcodeOf 3#2 1#3 mode.field
  | .and mode _ => opcodeOf 3#2 2#3 mode.field
  | .lneg mode _ => opcodeOf 3#2 3#3 mode.field
  | .add r mode _ => opcodeOf r.field 0#3 mode.field
  | .sub r mode _ => opcodeOf r.field 1#3 mode.field
  | .load r mode _ => opcodeOf r.field 2#3 mode.field
  | .store r mode _ => opcodeOf r.field 3#3 mode.field

/-- The operand bytes of an instruction: none in format F1, one in format F2 (R71). -/
def Instr.operands : Instr → List Byte
  | .halt _ => []
  | .nop _ => []
  | .ext1 _ => []
  | .sftr _ _ => []
  | .rotr _ _ => []
  | .sftl _ _ => []
  | .rotl _ _ => []
  | .set0 _ opnd => [opnd]
  | .set1 _ opnd => [opnd]
  | .skp0 _ opnd => [opnd]
  | .skp1 _ opnd => [opnd]
  | .jpd _ opnd => [opnd]
  | .jpi _ opnd => [opnd]
  | .jmd _ opnd => [opnd]
  | .jmi _ opnd => [opnd]
  | .or _ opnd => [opnd]
  | .ext2 _ opnd => [opnd]
  | .and _ opnd => [opnd]
  | .lneg _ opnd => [opnd]
  | .add _ _ opnd => [opnd]
  | .sub _ _ opnd => [opnd]
  | .load _ _ opnd => [opnd]
  | .store _ _ opnd => [opnd]

/-- The bytes of an instruction, the opcode byte at the lower address (R53). -/
def encode (i : Instr) : List Byte := i.opcode :: i.operands

end Sys2Proof
end

