-- ==== Sys2Proof/Machine/Hook.lean ====
section
/-! DEFINITION. The extension hook, the machine's only trap-like mechanism, and the system call
(spec 60_exceptions.md). Entry saves nothing, return restores nothing; the advance follows the
hook's return and is added to what the hook left at address 3 (R203). -/

namespace Sys2Proof.Machine

/-- The read half of the system call: the capability probe (R212) or `CfgRead` into B (R214). -/
def sysRead (s : State) (idx : BitVec 7) : State :=
  if idx = 0x7F#7 then s.memWrite addrB 0#8
  else
    let answer := s.askCfgRead idx
    answer.2.memWrite addrB answer.1

/-- `SystemCall(M)` (R211): the new state and the hook's return value. A is direction and index, B the
value. -/
def systemCall (s : State) : State × Bool :=
  let a := s.memRead addrA
  let idx := a.extractLsb' 0 7
  if a.msb then
    let answer := s.askCfgWrite idx (s.memRead addrB)
    (answer.2, answer.1)
  else (sysRead s idx, true)

/-- Call the hook on an extension opcode and end the instruction (R203). -/
def callHook (op : Byte) (n : Byte) (s : State) : Result :=
  match s.params.hook with
  | .standalone => s.complete n true
  | .controller =>
    if op = s.params.syscallOpcode then (systemCall s).1.complete n (systemCall s).2
    else s.complete n true
  | .custom =>
    match (s.askHook op).1 with
    | .ran writes keep => ((s.askHook op).2.memWriteAll writes).complete n keep
    | .reentered => .refused .hookReentered
    | .diverged => .refused .hookDiverged

/-- EXT1 (R103): the hook receives the whole opcode byte. -/
def execExt1 (op : Byte) (s : State) : Result := callHook op 1#8 s

/-- EXT2 (R165): the operand byte is skipped; the hook receives only the opcode byte. -/
def execExt2 (mode : AddrMode) (opnd : Byte) (s : State) : Result :=
  callHook (Instr.ext2 mode opnd).opcode 2#8 s

end Sys2Proof.Machine
end

