-- ==== Sys2Proof/Machine/Jumps.lean ====
section
/-! DEFINITION. Jumps (spec 43_jumps.md). -/

namespace Sys2Proof.Machine

/-- A jump without mark: taken, the program counter becomes the target and nothing is added (R146);
not taken, it advances by 2 (R145). -/
def jumpTo (go : Bool) (target : Addr) (s : State) : Result :=
  if go then (s.memWrite addrPC target).complete 0#8 true else s.complete 2#8 true

/-- A jump-and-mark: taken, the return address is stored at the target and then the program counter
becomes `target +8 1` (R147); not taken, no mark is stored (R145). -/
def markAndJumpTo (go : Bool) (target : Addr) (s : State) : Result :=
  if go then
    ((s.memWrite target (s.pc + 2#8)).memWrite addrPC (target + 1#8)).complete 0#8 true
  else s.complete 2#8 true

/-- JPD (R148). -/
def execJpd (test : JumpTest) (opnd : Byte) (s : State) : Result :=
  jumpTo (taken s test) (directTarget opnd) s

/-- JPI (R149). -/
def execJpi (test : JumpTest) (opnd : Byte) (s : State) : Result :=
  jumpTo (taken s test) (indirectTarget s opnd) s

/-- JMD (R151). -/
def execJmd (test : JumpTest) (opnd : Byte) (s : State) : Result :=
  markAndJumpTo (taken s test) (directTarget opnd) s

/-- JMI (R152). -/
def execJmi (test : JumpTest) (opnd : Byte) (s : State) : Result :=
  markAndJumpTo (taken s test) (indirectTarget s opnd) s

end Sys2Proof.Machine
end

