-- ==== Sys2Proof/Machine/Logic.lean ====
section
/-! DEFINITION. OR, AND and LNEG, whose destination is always A (spec 44_logic.md). -/

namespace Sys2Proof.Machine

/-- Write a result to A; no flags byte is written (R161). -/
def resultToA (v : Byte) (s : State) : Result := (s.memWrite addrA v).complete 2#8 true

/-- OR (R162). -/
def execOr (mode : AddrMode) (opnd : Byte) (s : State) : Result :=
  resultToA (s.memRead addrA ||| operandValue s mode opnd) s

/-- AND (R163). -/
def execAnd (mode : AddrMode) (opnd : Byte) (s : State) : Result :=
  resultToA (s.memRead addrA &&& operandValue s mode opnd) s

/-- LNEG (R164): the two's-complement negation of the operand; the old A is not used. -/
def execLneg (mode : AddrMode) (opnd : Byte) (s : State) : Result :=
  resultToA (0#8 - operandValue s mode opnd) s

end Sys2Proof.Machine
end

