-- ==== Sys2Proof/Machine/Shift.lean ====
section
/-! DEFINITION. Shifts and rotates (spec 41_shift_rotate.md). -/

namespace Sys2Proof.Machine

/-- `repeat count times: v <- f(v)`. -/
def iterate (f : Byte → Byte) : Nat → Byte → Byte
  | 0, v => v
  | n + 1, v => iterate f n (f v)

/-- `shl1` (R112): bit 7 lost, bit 0 zero. -/
def shl1 (v : Byte) : Byte := v <<< 1

/-- `rol1` (R112): bit 7 goes to bit 0. -/
def rol1 (v : Byte) : Byte := (v <<< 1) ||| (v >>> 7)

/-- `asr1` (R112): bit 0 lost, bit 7 is the sign the instruction started with. -/
def asr1 (s0 : Bool) (v : Byte) : Byte := (v >>> 1) ||| (if s0 then 0x80#8 else 0#8)

/-- `ror1` (R112): bit 0 goes to bit 7. -/
def ror1 (v : Byte) : Byte := (v >>> 1) ||| ((v &&& 1#8) <<< 7)

/-- What SFTL computes (R113), in either mode (R119). -/
def shiftLeft (count : Nat) (v : Byte) : Byte := iterate shl1 count v

/-- What SFTR computes: sign fill (R115), or zero fill with `LEGACY_SHIFT` (R119). -/
def shiftRight (legacy : Bool) (count : Nat) (v : Byte) : Byte :=
  if legacy then v >>> count else iterate (asr1 v.msb) count v

/-- What ROTL computes (R114). With `LEGACY_SHIFT` a rotate by more than 1 is the free value
`LegacyRot` (R119, log 4). -/
def rotateLeft (legacy : Bool) (count : Nat) (v : Byte) : Byte :=
  if legacy && decide (1 < count) then Config.legacyRot true v count else iterate rol1 count v

/-- What ROTR computes (R116); `LEGACY_SHIFT` as for ROTL. -/
def rotateRight (legacy : Bool) (count : Nat) (v : Byte) : Byte :=
  if legacy && decide (1 < count) then Config.legacyRot false v count else iterate ror1 count v

/-- The common frame of the four (R111): the register is read and written, nothing else but the
program counter changes. -/
def shiftWith (r : ShiftReg) (f : Byte → Byte) (s : State) : Result :=
  (s.memWrite (ShiftReg.addr r) (f (s.memRead (ShiftReg.addr r)))).complete 1#8 true

/-- SFTR (R115). -/
def execSftr (r : ShiftReg) (count : Nat) (s : State) : Result :=
  shiftWith r (shiftRight s.params.legacyShift count) s

/-- ROTR (R116). -/
def execRotr (r : ShiftReg) (count : Nat) (s : State) : Result :=
  shiftWith r (rotateRight s.params.legacyShift count) s

/-- SFTL (R113). -/
def execSftl (r : ShiftReg) (count : Nat) (s : State) : Result :=
  shiftWith r (shiftLeft count) s

/-- ROTL (R114). -/
def execRotl (r : ShiftReg) (count : Nat) (s : State) : Result :=
  shiftWith r (rotateLeft s.params.legacyShift count) s

end Sys2Proof.Machine
end

