-- ==== Sys2Proof/Machine/Dispatch.lean ====
section
/-! DEFINITION. The meaning of each instruction: one arm per constructor, one direct call each. -/

namespace Sys2Proof.Machine

def exec (i : Instr) (s : State) : Host.Outcome State Fault Refusal :=
  match i with
  | .halt ign => Sys2Proof.Machine.execHalt ign s
  | .nop ign => Sys2Proof.Machine.execNop ign s
  | .ext1 op => Sys2Proof.Machine.execExt1 op s
  | .sftr r count => Sys2Proof.Machine.execSftr r count s
  | .rotr r count => Sys2Proof.Machine.execRotr r count s
  | .sftl r count => Sys2Proof.Machine.execSftl r count s
  | .rotl r count => Sys2Proof.Machine.execRotl r count s
  | .set0 bit opnd => Sys2Proof.Machine.execSet0 bit opnd s
  | .set1 bit opnd => Sys2Proof.Machine.execSet1 bit opnd s
  | .skp0 bit opnd => Sys2Proof.Machine.execSkp0 bit opnd s
  | .skp1 bit opnd => Sys2Proof.Machine.execSkp1 bit opnd s
  | .jpd test opnd => Sys2Proof.Machine.execJpd test opnd s
  | .jpi test opnd => Sys2Proof.Machine.execJpi test opnd s
  | .jmd test opnd => Sys2Proof.Machine.execJmd test opnd s
  | .jmi test opnd => Sys2Proof.Machine.execJmi test opnd s
  | .or mode opnd => Sys2Proof.Machine.execOr mode opnd s
  | .ext2 mode opnd => Sys2Proof.Machine.execExt2 mode opnd s
  | .and mode opnd => Sys2Proof.Machine.execAnd mode opnd s
  | .lneg mode opnd => Sys2Proof.Machine.execLneg mode opnd s
  | .add r mode opnd => Sys2Proof.Machine.execAdd r mode opnd s
  | .sub r mode opnd => Sys2Proof.Machine.execSub r mode opnd s
  | .load r mode opnd => Sys2Proof.Machine.execLoad r mode opnd s
  | .store r mode opnd => Sys2Proof.Machine.execStore r mode opnd s

end Sys2Proof.Machine
end

