-- ==== Sys2Proof/Machine/Fetch.lean ====
section
/-! DEFINITION. Instruction fetch (spec 30_encoding.md R73). -/

namespace Sys2Proof.Machine

/-- The bytes a fetch reads: `M[PC]`, and `M[PC +8 1]` for a two-byte instruction. -/
def State.fetchBytes (s : State) : List Byte :=
  let op := s.memRead s.pc
  if opcodeLength op = 1 then [op] else [op, s.memRead (s.pc + 1#8)]

/-- The instruction at the program counter. Every byte is an opcode (R81), so there always is one. -/
def State.fetch (s : State) : Instr :=
  let op := s.memRead s.pc
  if opcodeLength op = 1 then decodeBytes op 0#8 else decodeBytes op (s.memRead (s.pc + 1#8))

/-- Where `withFetchWord` places an instruction: the program counter, but 4 where that is 2 or 3. There
the instruction's bytes would lie on the program counter itself (address 3) and change where the fetch
goes. -/
def State.fetchPlace (s : State) : Addr :=
  if s.pc = 2#8 ∨ s.pc = 3#8 then 4#8 else s.pc

/-- Store the one or two bytes of an instruction at an address. -/
def State.placeInstr (s : State) (p : Addr) (op opnd : Byte) : State :=
  if opcodeLength op = 1 then s.memWrite p op
  else (s.memWrite p op).memWrite (p + 1#8) opnd

end Sys2Proof.Machine
end

