-- ==== Sys2Proof/Machine/Step.lean ====
section
/-! DEFINITION. One step of the emulator (spec 60_exceptions.md R201): "decode and execute exactly one
instruction starting at the current program-counter register". -/

namespace Sys2Proof.Machine

/-- One step. It looks neither at `run` nor at `keep`: the emulator has no halted bit, and after a HALT
a further step executes the next instruction (R202). -/
def step (s : State) : Host.Outcome State Fault Refusal := exec s.fetch s

/-- `s` with an instruction stored where `step` fetches its next one: its bits are `w`, those from
`nbits` on are 0. The program counter is moved to 4 only where it is 2 or 3 (`State.fetchPlace`). -/
def State.withFetchWord (s : State) (nbits w : Nat) : State :=
  let v := w % 2 ^ nbits
  let p := s.fetchPlace
  let s := if p = s.pc then s else s.memWrite addrPC p
  s.placeInstr p (BitVec.ofNat 8 v) (BitVec.ofNat 8 (v / 256))

end Sys2Proof.Machine
end

