-- ==== Sys2Proof/Machine/Serial.lean ====
section
/-! DEFINITION. The serial bulk-transfer protocol (spec 61_front_panel.md R249). What R249 leaves open
(91 N13) is an argument: the newline of a dump, and the record `SerialRules` for a load. -/

namespace Sys2Proof.Machine

/-! ## Characters of the inbound grammar -/

/-- The digits of base 8. -/
def isOctalDigit (c : Byte) : Bool := decide (48 ≤ c.toNat ∧ c.toNat ≤ 55)

/-- The characters `e` and `s`, at which the load "stops entirely". -/
def isStopChar (c : Byte) : Bool := c == 101#8 || c == 115#8

/-- The character `x`, which switches to base 16. -/
def isHexChar (c : Byte) : Bool := c == 120#8

/-- A character at which a load in base 8 only ends a value: no base-8 digit, no `x`, no `e`, no `s`. -/
def isDelimiter (c : Byte) : Bool := !isOctalDigit c && !isStopChar c && !isHexChar c

/-! ## Outbound dump -/

/-- An octal digit's character. -/
def octalChar (d : Nat) : Byte := BitVec.ofNat 8 (48 + d)

/-- A byte as "three base-8 ASCII digits prefixed with `0` and suffixed with `,`". -/
def dumpByte (v : Byte) : List Byte :=
  [48#8, octalChar (v.toNat / 64), octalChar (v.toNat / 8 % 8), octalChar (v.toNat % 8), 44#8]

/-- A newline made of any characters: those that are delimiters, since "the dump's own output reloads
exactly" (R249), and a line feed where none is. Every list of one or more delimiters is one (log 10). -/
def newlineOf (chars : List Byte) : List Byte :=
  match chars.filter isDelimiter with
  | [] => [10#8]
  | c :: rest => c :: rest

/-- The dump of bytes of which `sentBefore` have gone before: a newline after every 16th. -/
def dumpFrom (newline : List Byte) : Nat → List Byte → List Byte
  | _, [] => []
  | sentBefore, v :: rest =>
    dumpByte v ++ (if (sentBefore + 1) % 16 = 0 then newline else []) ++
    dumpFrom newline (sentBefore + 1) rest

/-- The dump of a list of bytes. -/
def dumpBytes (newline : List Byte) (bytes : List Byte) : List Byte := dumpFrom newline 0 bytes

/-- `count` bytes of `M` from an address on, wrapping at the top. -/
def State.bytesFrom (s : State) (a : Addr) : Nat → List Byte
  | 0 => []
  | n + 1 => s.memRead a :: s.bytesFrom (a + 1#8) n

/-! ## Inbound load -/

/-- The value of a digit character: base 8 by default, base 16 after an `x`. Which letters are base-16
digits, and whether `e` is one, R249 leaves open: both are free here (log 10). -/
def digitValue (rules : SerialRules) (hex : Bool) (c : Byte) : Option Nat :=
  let n := c.toNat
  if 48 ≤ n ∧ n ≤ 55 then some (n - 48)
  else if hex then
    if 56 ≤ n ∧ n ≤ 57 then some (n - 48)
    else if rules.hexLetters ≠ .upper ∧ 97 ≤ n ∧ n ≤ 102 then (if n = 101 ∧ rules.hexEStops then none else some (n - 87))
    else if rules.hexLetters ≠ .lower ∧ 65 ≤ n ∧ n ≤ 70 then some (n - 55)
    else none
  else none

/-- The byte of an accumulated value. -/
def valueByte (rules : SerialRules) (n : Nat) : Byte :=
  if n < 256 then BitVec.ofNat 8 n else rules.wide n

/-- The byte of a value that is pending, if one is. -/
def flushValue (rules : SerialRules) : Option Nat → List Byte
  | none => []
  | some n => [valueByte rules n]

/-- The bytes of a value that is pending when the load ends, at a stop character or, for `none`, at the
end of what arrives. -/
def endValue (rules : SerialRules) (stop : Option Byte) (pending : Option Nat) : List Byte :=
  if rules.endKeepsPending stop then flushValue rules pending else []

/-- Whether the base is 16 after a delimiter. Where an `x` holds for one value only, R249 does not say
whether a delimiter with no value pending resets the base too: it is free here (log 10). -/
def hexAfterDelimiter (rules : SerialRules) (hex : Bool) (pending : Option Nat) : Bool :=
  hex && (rules.baseSticks || (pending.isNone && !rules.bareDelimiterResets))

/-- The bytes a stream of characters stands for, from a base and a pending value on. What R249 leaves
open is in `rules` (log 10). -/
def parseFrom (rules : SerialRules) : Bool → Option Nat → List Byte → List Byte
  | _, pending, [] => endValue rules none pending
  | hex, pending, c :: rest =>
    match digitValue rules hex c with
    | some d => parseFrom rules hex (some (pending.getD 0 * (if hex then 16 else 8) + d)) rest
    | none =>
      if isStopChar c then endValue rules (some c) pending
      else if isHexChar c then
        match rules.atX with
        | .ends => flushValue rules pending ++ parseFrom rules true none rest
        | .goesOn => parseFrom rules true pending rest
        | .dropped => parseFrom rules true none rest
      else
        flushValue rules pending ++ parseFrom rules (hexAfterDelimiter rules hex pending) none rest

/-- The bytes a stream of characters stands for. -/
def parseBytes (rules : SerialRules) (chars : List Byte) : List Byte :=
  parseFrom rules false none chars

/-- "an 8-bit additive checksum". -/
def checksum : List Byte → Byte
  | [] => 0#8
  | v :: rest => v + checksum rest

/-- The stores that put bytes at consecutive addresses, wrapping at the top. -/
def writesFrom (a : Addr) : List Byte → Writes
  | [] => []
  | v :: rest => (a, v) :: writesFrom (a + 1#8) rest

end Sys2Proof.Machine
end

