-- ==== Sys2Proof/Machine/Panel.lean ====
section
/-! DEFINITION. The front panel's commands (spec 61_front_panel.md R256 to R271) and the control byte
(R275). A command for which the spec names no new `disp` or `mode` leaves it as it is (log 11). -/

namespace Sys2Proof.Machine

/-! ## Chords -/

/-- Button `b` has its bit set in a sample's bitmap (R244, R246). -/
def Params.held (p : Params) (bits : BitVec 16) (b : Button) : Bool :=
  bits.getLsbD (Params.bitOf p b)

/-- The chord partner of a primary button (R256): the first other held button in scan order. -/
def chordPartner (p : Params) (state : BitVec 16) (primary : Button) : Option Button :=
  p.chordScan.find? fun c => c != primary && Params.held p state c

/-- The new presses of a sample, in ascending `BTN_BIT` (R256). A `newly` bit without its `state` bit
counts for nothing: `newly` is a subset of `state` (R245). -/
def newPresses (p : Params) (sm : Sample) : List Button :=
  (List.range 16).filterMap fun bit =>
    if (sm.newly &&& sm.state).getLsbD bit then Params.buttonAt p bit else none

/-! ## Digit and clear buttons -/

/-- `Dk` alone (R258, R259): toggle or set a bit of the input latch. -/
def digitCommand (k : Fin 8) (s : State) : State :=
  let bit := 1#8 <<< k.val
  let latch := s.memRead addrIN
  let v := if s.params.toggleMode then latch ^^^ bit else latch ||| bit
  ((s.memWrite addrIN v).withDisp v).withMode .input

/-- `Dk` with `STOP` (R260): load a canned program and show `1 << k`. -/
def cannedCommand (k : Fin 8) (s : State) : State :=
  let answer := s.askCanned k
  ((answer.2.memWriteAll answer.1).withDisp (1#8 <<< k.val)).withMode .none

/-- `CLR` alone (R261). -/
def clearCommand (s : State) : State :=
  ((s.memWrite addrIN 0#8).withDisp 0#8).withMode .input

/-- `CLR` with `STOP` (R261): blank the display, leave the latch. -/
def blankCommand (s : State) : State := (s.withDisp 0#8).withMode .none

/-! ## Address buttons -/

/-- `DISP` without a digit (R262). -/
def showCursorCommand (s : State) : State := (s.withDisp s.cursor).withMode .address

/-- `DISP` with `Dk` (R263): send bytes of `M` in the outbound format. -/
def dumpCommand (k : Fin 8) (s : State) : State :=
  let answer := s.askDumpRange k
  answer.2.emit (.serialOut
    (dumpBytes (newlineOf Config.newline) (answer.2.bytesFrom answer.1.start answer.1.count)))

/-- `SET` without a digit (R264): the cursor from the input latch. -/
def setCursorCommand (s : State) : State :=
  let v := s.memRead addrIN
  ((s.withCursor v).withDisp v).withMode .address

/-- `SET` with `Dk` (R265): store the bytes that arrive at consecutive addresses and send the summary.
What its byte count and its checksum cover is open in R249, and free here (log 10). -/
def serialLoadCommand (k : Fin 8) (s : State) : State :=
  let answer := s.askSerialLoad k
  let parsed := parseBytes Config.serialRules answer.1.chars
  let stored := parsed.take answer.1.limit
  let counted := if Config.serialRules.countOfStored then stored else parsed
  let summed := if Config.serialRules.checksumOfStored then stored else parsed
  (answer.2.memWriteAll (writesFrom answer.1.start stored)).emit
    (.serialSummary counted.length (checksum summed))

/-! ## Memory buttons -/

/-- `READ` alone (R266): show the byte at the cursor and move the cursor on. -/
def readCommand (s : State) : State :=
  ((s.withDisp (s.memRead s.cursor)).withCursor (s.cursor + 1#8)).withMode .memory

/-- The stores of a slot load that take effect: with the preserve flag, those to "reserved register
addresses" do not (R248, log 9). -/
def slotWrites (preserve : Bool) (ws : Writes) : Writes :=
  ws.filter fun w => !(preserve && registerMap.contains w.1 && Config.slotPreserves w.1)

/-- `READ` with `Dk` (R266, R248): load a slot into memory; "no effect" leaves `M` as it is. -/
def slotLoadCommand (k : Fin 8) (s : State) : State :=
  let answer := s.askSlotLoad k
  match answer.1.restored with
  | none => answer.2
  | some ws => answer.2.memWriteAll (slotWrites answer.1.preserve ws)

/-- `READ` with `STOP` (R266): the system call with its direction forced to read. -/
def sysReadCommand (s : State) : State :=
  let s := sysRead s ((s.memRead addrA).extractLsb' 0 7)
  (s.withDisp (s.memRead addrB)).withMode .none

/-- `STORE` alone (R267): the input latch to the cursor. -/
def storeCommand (s : State) : State :=
  let v := s.memRead addrIN
  (((s.memWrite s.cursor v).withDisp v).withCursor (s.cursor + 1#8)).withMode .memory

/-- `STORE` with `Dk` (R267, R248): save a slot; the result is not used. -/
def slotSaveCommand (k : Fin 8) (s : State) : State := (s.askSlotSave k).2

/-- `STORE` with `STOP` (R267): the system call with its direction forced to write; the result is
ignored. -/
def sysWriteCommand (s : State) : State :=
  (s.askCfgWrite ((s.memRead addrA).extractLsb' 0 7) (s.memRead addrB)).2

/-- `STORE` with `CLR` (R268): zero all memory, the cursor just past the program counter. -/
def clearAllCommand (s : State) : State :=
  ((s.clearAllMemory.withCursor 4#8).withDisp 0#8).withMode .none

/-! ## Run buttons -/

/-- `START` without `STOP` (R269). -/
def startCommand (s : State) : State := (s.withRun true).withMode .run

/-- What the display shows after a step (R253, R269). -/
def State.showOutput (s : State) : State := (s.withDisp (s.memRead addrOUT)).withMode .run

/-- `START` with `STOP` (R269): one step, whose keep-running result is ignored. -/
def singleStepCommand (s : State) : Result := andThen (step s) fun s => .next s.showOutput

/-- `STOP` (R270): with a digit it sets the cycle delay; it always halts and shows run mode. -/
def stopCommand (partner : Option Button) (s : State) : State :=
  let s := match partner with
    | some (.digit k) => s.withDelay (some (BitVec.ofNat 4 k.val))
    | _ => s
  (s.withRun false).withMode .run

/-! ## Dispatch -/

/-- A digit button with its partner (R258, R260). -/
def digitPress (k : Fin 8) (partner : Option Button) (s : State) : State :=
  if partner = some .stop then cannedCommand k s else digitCommand k s

/-- The clear button with its partner (R261). -/
def clearPress (partner : Option Button) (s : State) : State :=
  if partner = some .stop then blankCommand s else clearCommand s

/-- The while-halted command table (R257): a partner that an entry does not list selects its
"otherwise". -/
def dispatchHalted (primary : Button) (partner : Option Button) (s : State) : Result :=
  match primary with
  | .digit k => .next (digitPress k partner s)
  | .clr => .next (clearPress partner s)
  | .disp =>
    match partner with
    | some (.digit k) => .next (dumpCommand k s)
    | _ => .next (showCursorCommand s)
  | .set =>
    match partner with
    | some (.digit k) => .next (serialLoadCommand k s)
    | _ => .next (setCursorCommand s)
  | .read =>
    match partner with
    | some (.digit k) => .next (slotLoadCommand k s)
    | some .stop => .next (sysReadCommand s)
    | _ => .next (readCommand s)
  | .store =>
    match partner with
    | some (.digit k) => .next (slotSaveCommand k s)
    | some .stop => .next (sysWriteCommand s)
    | some .clr => .next (clearAllCommand s)
    | _ => .next (storeCommand s)
  | .start => if partner = some .stop then singleStepCommand s else .next (startCommand s)
  | .stop => .next (stopCommand partner s)

/-- The while-running command table (R271): digits, clear and stop only, chords included (log 12). -/
def dispatchRunning (primary : Button) (partner : Option Button) (s : State) : State :=
  match primary with
  | .digit k => digitPress k partner s
  | .clr => clearPress partner s
  | .disp => s
  | .set => s
  | .read => s
  | .store => s
  | .start => s
  | .stop => stopCommand partner s

/-- Dispatch the new presses of a sample one by one while halted. -/
def pressesHalted (state : BitVec 16) : List Button → State → Result
  | [], s => .next s
  | b :: rest, s =>
    andThen (dispatchHalted b (chordPartner s.params state b) s) (pressesHalted state rest)

/-- Dispatch the new presses of a sample one by one while running. -/
def pressesRunning (state : BitVec 16) : List Button → State → State
  | [], s => s
  | b :: rest, s =>
    pressesRunning state rest (dispatchRunning b (chordPartner s.params state b) s)

/-! ## Rendering -/

/-- The control byte (R247, R275): bits 7 to 4 are the intensity of the Run indicator, 15 when it is
off; bit 3 is 0; bits 2 to 0 are the Memory, Address and Input indicators. -/
def controlByte (p : Params) (mode : DisplayMode) : Byte :=
  match mode with
  | .run => (p.runIntensity ++ 0#4 : BitVec 8)
  | .memory => 0xF4#8
  | .address => 0xF2#8
  | .input => 0xF1#8
  | .none => 0xF0#8

end Sys2Proof.Machine
end

