-- ==== Sys2Proof/Machine/Cycle.lean ====
section
/-! DEFINITION. The controller's main cycle (spec 61_front_panel.md R252), the second of the two step
relations of R7. It contains at most one `step`. -/

namespace Sys2Proof.Machine

/-- The render that ends every cycle (R252, R275). -/
def State.rendered (s : State) : State := s.emit (.render s.disp (controlByte s.params s.mode))

/-- The cycle delay after a step that keeps running (R277): an aborted sleep is an immediate halt. -/
def State.cycleDelay (s : State) : State :=
  match s.delay with
  | none => s
  | some d =>
    let answer := s.askSleep (2 ^ d.toNat)
    if answer.1 then answer.2 else (answer.2.withRun false).withMode .run

/-- What the controller does after a step while running (R252 to R254). -/
def State.afterStep (s : State) : State :=
  if s.keep then s.showOutput.cycleDelay else s.showOutput.withRun false

/-- The sample's presses while running (R271). The port answers nothing only to a debounced request
(R244); such an answer here counts as a sample without a press. -/
def State.sampleRunning (s : State) : State :=
  match (s.askSample false).1 with
  | none => (s.askSample false).2
  | some sm => pressesRunning sm.state (newPresses s.params sm) (s.askSample false).2

/-- The running branch of the cycle: presses, then one step unless a press ended the run. -/
def cycleRunning (s : State) : Result :=
  if s.sampleRunning.run then andThen (step s.sampleRunning) fun s => .next s.afterStep
  else .next s.sampleRunning

/-- The halted branch of the cycle (R255): a debounce disagreement dispatches nothing. -/
def cycleHalted (s : State) : Result :=
  match (s.askSample true).1 with
  | none => .next (s.askSample true).2
  | some sm => pressesHalted sm.state (newPresses s.params sm) (s.askSample true).2

/-- One invocation of the main cycle (R252). -/
def cycle (s : State) : Result :=
  andThen (if s.run then cycleRunning s else cycleHalted s) fun s => .next s.rendered

end Sys2Proof.Machine
end

