-- ==== Sys2Proof/Safety.lean ====
section
/-! DEFINITION. What counts as a safe state and a safe run, in the terms the statements use. -/

namespace Sys2Proof.Machine

/-- The invariant of the machine: memory is canonical, the parameters are legal (R11, R246, R256), and
the cycle delay is one the panel can set (R36: "0 to 7 reachable from the panel"). -/
def State.safe (s : State) : Bool :=
  Memory.wf s.mem && Params.wf s.params &&
  match s.delay with
  | none => true
  | some d => decide (d.toNat ≤ 7)

/-- The controller's state and the parameters are the same: what no instruction reaches (R34, R36). -/
def State.SameControl (s t : State) : Prop :=
  t.run = s.run ∧ t.mode = s.mode ∧ t.cursor = s.cursor ∧ t.delay = s.delay ∧ t.disp = s.disp ∧
  t.params = s.params

/-- Nothing was asked of and nothing sent to the outside. -/
def State.SameOutside (s t : State) : Prop := t.oracle = s.oracle ∧ t.sent = s.sent

/-- Everything but `M` and the keep-running result is the same. -/
def State.SameBesideMemory (s t : State) : Prop := s.SameControl t ∧ s.SameOutside t

/-- An outcome is a next state. -/
def Completes (o : Result) : Prop := ∃ t, o = .next t

/-- An instruction completes: `exec` answers a next state whose every byte is `byteAfter` of its address,
with the keep-running result `keep`, and with everything else in the state as before. It says the
result and the whole frame at once: `byteAfter` answers `s.memRead a` wherever the instruction changes
nothing, and the registers, the flags, the program counter and the latches are bytes (R22). -/
def RunsTo (i : Instr) (s : State) (keep : Bool) (byteAfter : Addr → Byte) : Prop :=
  ∃ t, exec i s = .next t ∧ t.keep = keep ∧ s.SameBesideMemory t ∧
    ∀ a : Addr, t.memRead a = byteAfter a

/-- A jump is taken, by the signed reading of R143 and, for `fP = 3`, whatever the registers hold
(R142). -/
def JumpHolds (s : State) : JumpTest → Prop
  | .reg r .ne => (s.reg r).toInt ≠ 0
  | .reg r .eq => (s.reg r).toInt = 0
  | .reg r .lt => (s.reg r).toInt < 0
  | .reg r .ge => 0 ≤ (s.reg r).toInt
  | .reg r .gt => 0 < (s.reg r).toInt
  | .always _ => True

/-- The address an instruction stores a byte to, if it is of a form that stores: STORE's operand
location, the operand address of SET0 and SET1, the target of a taken jump-and-mark. -/
def storeAddress (s : State) : Instr → Option Addr
  | .store _ mode opnd => some (ea s mode opnd)
  | .set0 _ opnd => some opnd
  | .set1 _ opnd => some opnd
  | .jmd test opnd => if taken s test then some (directTarget opnd) else none
  | .jmi test opnd => if taken s test then some (indirectTarget s opnd) else none
  | _ => none

/-- The registers an instruction has as its destination, with the flags byte for ADD and SUB; B for the
extension opcodes, whose system call can write it. -/
def destinations : Instr → List Addr
  | .add r _ _ => [Reg.addr r, Reg.flagsAddr r]
  | .sub r _ _ => [Reg.addr r, Reg.flagsAddr r]
  | .load r _ _ => [Reg.addr r]
  | .or _ _ => [addrA]
  | .and _ _ => [addrA]
  | .lneg _ _ => [addrA]
  | .sftr r _ => [ShiftReg.addr r]
  | .rotr r _ => [ShiftReg.addr r]
  | .sftl r _ => [ShiftReg.addr r]
  | .rotl r _ => [ShiftReg.addr r]
  | .ext1 _ => [addrB]
  | .ext2 _ _ => [addrB]
  | _ => []

/-- The hypothesis under which every rule of the instruction set is stated (R10, R27). -/
def State.CurrentPc (s : State) : Prop := s.params.legacyPc = false

/-- The hook is one of the two the spec describes, not one of which nothing is known (R12, 93 U3). -/
def State.KnownHook (s : State) : Prop := s.params.hook ≠ .custom

/-- An extension instruction, the opcode byte its hook receives, and its length (R103, R165). -/
def IsExtension (i : Instr) (op n : Byte) : Prop :=
  i = .ext1 op ∧ n = 1#8 ∨ ∃ mode opnd, i = .ext2 mode opnd ∧ op = i.opcode ∧ n = 2#8

/-- Executing `i` in `s` is the system call: the controller's hook is installed and `i`'s opcode is
`SYSCALL_OPCODE` (R210). -/
def IsSystemCall (s : State) (i : Instr) (n : Byte) : Prop :=
  s.params.hook = .controller ∧ IsExtension i s.params.syscallOpcode n

/-- The item index of the system call, `A[6:0]` (R211). -/
def State.sysIndex (s : State) : BitVec 7 := (s.memRead addrA).extractLsb' 0 7

/-- The run of a bare emulator (R320): steps up to and including the first that returns
`keep = false`, at most `fuel` of them. The answer is `none` when no such step was reached. -/
def runToHalt : Nat → State → Option State
  | 0, _ => none
  | fuel + 1, s =>
    match step s with
    | .next t => if t.keep then runToHalt fuel t else some t
    | .fault _ => none
    | .refused _ => none

/-- The run under the controller ends in this cycle (R320): `run` goes from 1 to 0. -/
def EndsRun (s t : State) : Prop := s.run = true ∧ cycle s = .next t ∧ t.run = false

end Sys2Proof.Machine
end

