-- ==== Sys2Proof/Certificates/Slice0/Obligations.lean ====
section
/-! DEFINITION. The statements for the provers. Each is a proposition about the model; its docstring
says which rule of spec/ it formalises. Every statement about an instruction's effect assumes
`LEGACY_PC = false` (`State.CurrentPc`), the condition under which the spec's rules hold (R10, R27).
`RunsTo i s keep byteAfter` (Safety) says that `exec i s` answers a next state, and gives every byte of
that state's memory, its keep-running result, and that nothing else changed. -/

open Sys2Proof Sys2Proof.Machine

/-! ## Encoding -/

/-- Decoding the bytes of any well-formed instruction gives it back, with every operand, and leaves the
bytes that follow (R70 to R85). -/
def Obligations.DecodeOfEncodeIsTheInstruction : Prop :=
  ∀ (i : Instr) (rest : List Byte), i.wf = true → decode (encode i ++ rest) = .ok (i, rest)

/-- Whatever the decoder reads is well-formed and encodes to exactly the bytes it was read from: each
word has one meaning (R80, R81). -/
def Obligations.EncodeOfDecodeIsTheBytes : Prop :=
  ∀ (bytes rest : List Byte) (i : Instr), decode bytes = .ok (i, rest) →
    i.wf = true ∧ encode i ++ rest = bytes

/-- A few words written out from the encodings of spec/: HALT, EXT1 0xF0, SFTR A,2, SET1 7, JPI B,LT,
OR #, SUB X,(m)+X (R80). -/
def Obligations.WordsDecodeAsTheMapSays : Prop :=
  decode [0b01111000#8] = .ok (.halt 0b1111#4, []) ∧
  decode [0b11110000#8] = .ok (.ext1 0xF0#8, []) ∧
  decode [0b00010001#8] = .ok (.sftr .a 2, []) ∧
  decode [0b01111010#8, 0x80#8] = .ok (.set1 7#3 0x80#8, []) ∧
  decode [0b01101101#8, 0x40#8] = .ok (.jpi (.reg .b .lt) 0x40#8, []) ∧
  decode [0b11000011#8, 0x30#8] = .ok (.or .imm 0x30#8, []) ∧
  decode [0b10001111#8, 0x12#8] = .ok (.sub .x .indIdx 0x12#8, [])

/-! ## The step -/

/-- When the bytes at the program counter decode to an instruction, `step` is `exec` of it at that
state, with nothing around it (R73, R201). The bytes are `M[PC]`, and `M[PC + 1]` for a two-byte
opcode. -/
def Obligations.StepRunsTheDecodedInstruction : Prop :=
  ∀ (s : State) (i : Instr) (rest : List Byte),
    decode (if opcodeLength (s.memRead (s.memRead 3#8)) = 1 then [s.memRead (s.memRead 3#8)]
      else [s.memRead (s.memRead 3#8), s.memRead (s.memRead 3#8 + 1#8)]) = .ok (i, rest) →
    i.wf = true → step s = exec i s

/-- Every step on every memory content completes, whatever bytes stand at the program counter, under
both hooks the spec describes (R81, R201). -/
def Obligations.EveryStepCompletes : Prop :=
  ∀ s : State, s.CurrentPc → s.KnownHook → Completes (step s)

/-- With `LEGACY_PC = true` no instruction has a meaning: each is refused (R10, the spec's own decision
D11; log 13). -/
def Obligations.LegacyPcRefusesEveryInstruction : Prop :=
  ∀ (i : Instr) (s : State), s.params.legacyPc = true → ∃ r, exec i s = .refused r

/-! ## One-byte class and the hook -/

/-- HALT (R101): encoded `0 x x x x 0 0 0`; the step returns false and writes address 3 only, which
advances by 1. That the halting step advances is the spec's own reading (D4). -/
def Obligations.HaltAdvancesAndReturnsFalse : Prop :=
  ∀ (ign : BitVec 4) (s : State), s.CurrentPc →
    encode (.halt ign) = [(0#1 ++ ign ++ 0#3 : BitVec 8)] ∧
    RunsTo (.halt ign) s false fun a => if a = 3#8 then s.memRead 3#8 + 1#8 else s.memRead a

/-- NOP (R102): encoded `1 x 0 0 0 0 0 0`; the step returns true and writes address 3 only. -/
def Obligations.NopOnlyAdvances : Prop :=
  ∀ (ign : BitVec 1) (s : State), s.CurrentPc →
    encode (.nop ign) = [(1#1 ++ ign ++ 0#6 : BitVec 8)] ∧
    RunsTo (.nop ign) s true fun a => if a = 3#8 then s.memRead 3#8 + 1#8 else s.memRead a

/-- EXT1 and EXT2 are no-ops of their length under the default hook, and under the controller's hook
for every opcode but `SYSCALL_OPCODE` (R12, R103, R165, R210; the advance and the 18 other opcodes are
the spec's own decisions D5 and D13). -/
def Obligations.ExtensionsAreNoOpsOfTheirLength : Prop :=
  ∀ (i : Instr) (op n : Byte) (s : State), s.CurrentPc → IsExtension i op n →
    (s.params.hook = .standalone ∨
      s.params.hook = .controller ∧ op ≠ s.params.syscallOpcode) →
    RunsTo i s true fun a => if a = 3#8 then s.memRead 3#8 + n else s.memRead a

/-- The system call's read (R214): with `A[7] = 0` and an index that is not the probe's, B becomes what
`CfgRead(A[6:0])` answers, the step keeps running, the request is the one thing sent, and nothing else
changes but the program counter. The answer is any byte: a waiting one or a free value. That a read
keeps running is the spec's own decision D15. -/
def Obligations.SystemCallReadPutsTheAnswerInB : Prop :=
  ∀ (i : Instr) (n : Byte) (s : State), s.CurrentPc → IsSystemCall s i n →
    (s.memRead 0#8).getLsbD 7 = false → s.sysIndex ≠ 0x7F#7 →
    ∃ t, exec i s = .next t ∧ t.keep = true ∧ s.SameControl t ∧
      t.sent = .cfgRead s.sysIndex :: s.sent ∧
      t.oracle = (s.askCfgRead s.sysIndex).2.oracle ∧
      ∀ a : Addr, t.memRead a = if a = 3#8 then s.memRead 3#8 + n
        else if a = 1#8 then (s.askCfgRead s.sysIndex).1 else s.memRead a

/-- The capability probe (R212): `A = 0x7F` sets B to 0 without asking the store and keeps running;
under the default hook the same opcode leaves B as it was; a write with index 0x7F (`A = 0xFF`) is no
probe and is forwarded to the store (the spec's own decision D14). -/
def Obligations.CapabilityProbeClearsB : Prop :=
  ∀ (i : Instr) (n : Byte) (s : State), s.CurrentPc → IsExtension i s.params.syscallOpcode n →
    (s.params.hook = .controller → s.memRead 0#8 = 0x7F#8 →
      RunsTo i s true fun a => if a = 3#8 then s.memRead 3#8 + n
        else if a = 1#8 then 0#8 else s.memRead a) ∧
    (s.params.hook = .standalone →
      RunsTo i s true fun a => if a = 3#8 then s.memRead 3#8 + n else s.memRead a) ∧
    (s.params.hook = .controller → s.memRead 0#8 = 0xFF#8 →
      ∃ t, exec i s = .next t ∧ t.sent = .cfgWrite 0x7F#7 (s.memRead 1#8) :: s.sent ∧
        t.keep = (s.askCfgWrite 0x7F#7 (s.memRead 1#8)).1)

/-- The system call's write (R213): with `A[7] = 1` the store is asked `CfgWrite(A[6:0], B)`, its answer
is the step's result, so that a refused write stops the run with the program counter past the opcode,
and no byte but the program counter changes (the advance after the hook is the spec's own decision
D5). -/
def Obligations.SystemCallWriteReturnsTheStoresAnswer : Prop :=
  ∀ (i : Instr) (n : Byte) (s : State), s.CurrentPc → IsSystemCall s i n →
    (s.memRead 0#8).getLsbD 7 = true →
    ∃ t, exec i s = .next t ∧ s.SameControl t ∧
      t.keep = (s.askCfgWrite s.sysIndex (s.memRead 1#8)).1 ∧
      t.sent = .cfgWrite s.sysIndex (s.memRead 1#8) :: s.sent ∧
      t.oracle = (s.askCfgWrite s.sysIndex (s.memRead 1#8)).2.oracle ∧
      ∀ a : Addr, t.memRead a = if a = 3#8 then s.memRead 3#8 + n else s.memRead a

/-- Any hook (R203): what a hook of which nothing is known writes to `M` lands, then the program counter
advances by the instruction's length from what the hook left at address 3, and the hook's answer is
the step's result. A hook that re-enters the emulator or does not return is refused
(R204). The advance and the refusal are the spec's own decisions D5 and D24; logs 7 and 14. -/
def Obligations.HookCallIsFollowedByTheAdvance : Prop :=
  ∀ (i : Instr) (op n : Byte) (s : State), s.CurrentPc → IsExtension i op n →
    s.params.hook = .custom →
    (∀ (writes : Writes) (keep : Bool), (s.askHook op).1 = .ran writes keep →
      ∃ t, exec i s = .next t ∧ t.keep = keep ∧ s.SameControl t ∧
        t.sent = .hookCall op :: s.sent ∧ t.oracle = (s.askHook op).2.oracle ∧
        ∀ a : Addr, t.memRead a =
          if a = 3#8 then (s.memWriteAll writes).memRead 3#8 + n
          else (s.memWriteAll writes).memRead a) ∧
    ((s.askHook op).1 = .reentered → exec i s = .refused .hookReentered) ∧
    ((s.askHook op).1 = .diverged → exec i s = .refused .hookDiverged)

/-! ## Shifts and rotates -/

/-- SFTL (R113): the register shifted left by the count, zeros filling, in the closed form that the spec
derives from R112. It holds in both shift modes (R119, D10). -/
def Obligations.ShiftLeftFillsWithZeros : Prop :=
  ∀ (r : ShiftReg) (count : Nat) (s : State), s.CurrentPc → 1 ≤ count → count ≤ 4 →
    encode (.sftl r count) = [(2#2 ++ r.field ++ BitVec.ofNat 2 count ++ 1#3 : BitVec 8)] ∧
    RunsTo (.sftl r count) s true fun a => if a = 3#8 then s.memRead 3#8 + 1#8
      else if a = ShiftReg.addr r then s.memRead a <<< count else s.memRead a

/-- ROTL (R114): the register rotated left by the count, in the corrected mode and in the closed form
that the spec derives from R112. -/
def Obligations.RotateLeftIsEightBit : Prop :=
  ∀ (r : ShiftReg) (count : Nat) (s : State), s.CurrentPc → s.params.legacyShift = false →
    1 ≤ count → count ≤ 4 →
    encode (.rotl r count) = [(3#2 ++ r.field ++ BitVec.ofNat 2 count ++ 1#3 : BitVec 8)] ∧
    RunsTo (.rotl r count) s true fun a => if a = 3#8 then s.memRead 3#8 + 1#8
      else if a = ShiftReg.addr r then s.memRead a <<< count ||| s.memRead a >>> (8 - count)
      else s.memRead a

/-- SFTR (R115): `floor(signed(v) / 2^count) mod 256`, in the corrected mode; the closed form that the
spec derives from R112. -/
def Obligations.ShiftRightDividesTheSignedValue : Prop :=
  ∀ (r : ShiftReg) (count : Nat) (s : State), s.CurrentPc → s.params.legacyShift = false →
    1 ≤ count → count ≤ 4 →
    encode (.sftr r count) = [(0#2 ++ r.field ++ BitVec.ofNat 2 count ++ 1#3 : BitVec 8)] ∧
    RunsTo (.sftr r count) s true fun a => if a = 3#8 then s.memRead 3#8 + 1#8
      else if a = ShiftReg.addr r then BitVec.ofInt 8 ((s.memRead a).toInt / 2 ^ count)
      else s.memRead a

/-- ROTR (R116): the register rotated right by the count, in the corrected mode and in the closed form
that the spec derives from R112. -/
def Obligations.RotateRightIsEightBit : Prop :=
  ∀ (r : ShiftReg) (count : Nat) (s : State), s.CurrentPc → s.params.legacyShift = false →
    1 ≤ count → count ≤ 4 →
    encode (.rotr r count) = [(1#2 ++ r.field ++ BitVec.ofNat 2 count ++ 1#3 : BitVec 8)] ∧
    RunsTo (.rotr r count) s true fun a => if a = 3#8 then s.memRead 3#8 + 1#8
      else if a = ShiftReg.addr r then s.memRead a >>> count ||| s.memRead a <<< (8 - count)
      else s.memRead a

/-- `LEGACY_SHIFT = true` (R119): SFTR zero-fills, SFTL is as in the corrected mode, rotates by 1 are as
in the corrected mode; the result of a rotate by more than 1 is the free value `LegacyRot`, and only
that (the spec's own decision D10; log 4). -/
def Obligations.LegacyShiftZeroFillsAndLeavesRotatesOpen : Prop :=
  ∀ (r : ShiftReg) (count : Nat) (s : State), s.CurrentPc → s.params.legacyShift = true →
    1 ≤ count → count ≤ 4 →
    (RunsTo (.sftr r count) s true fun a => if a = 3#8 then s.memRead 3#8 + 1#8
      else if a = ShiftReg.addr r then s.memRead a >>> count else s.memRead a) ∧
    (RunsTo (.sftl r count) s true fun a => if a = 3#8 then s.memRead 3#8 + 1#8
      else if a = ShiftReg.addr r then s.memRead a <<< count else s.memRead a) ∧
    (RunsTo (.rotl r count) s true fun a => if a = 3#8 then s.memRead 3#8 + 1#8
      else if a = ShiftReg.addr r then
        (if count = 1 then s.memRead a <<< 1 ||| s.memRead a >>> 7
         else Config.legacyRot true (s.memRead a) count)
      else s.memRead a) ∧
    (RunsTo (.rotr r count) s true fun a => if a = 3#8 then s.memRead 3#8 + 1#8
      else if a = ShiftReg.addr r then
        (if count = 1 then s.memRead a >>> 1 ||| s.memRead a <<< 7
         else Config.legacyRot false (s.memRead a) count)
      else s.memRead a)

/-- The group property of 95 S2, over executions: four ROTL by 1 leave the register as one ROTL by 4
does (R114). -/
def Obligations.FourRotatesByOneAreOneByFour : Prop :=
  ∀ (r : ShiftReg) (s : State), s.CurrentPc → s.params.legacyShift = false →
    ∃ t u, andThen (exec (.rotl r 1) s) (fun s1 => andThen (exec (.rotl r 1) s1) fun s2 =>
        andThen (exec (.rotl r 1) s2) (exec (.rotl r 1))) = .next t ∧
      exec (.rotl r 4) s = .next u ∧
      t.memRead (ShiftReg.addr r) = u.memRead (ShiftReg.addr r) ∧
      t.memRead 3#8 = u.memRead 3#8 + 3#8

/-! ## Bit operations -/

/-- SET0 (R127): bit `bit` of the byte at the operand address becomes 0, and nothing else changes but
the program counter. With operand address 3 the bit is cleared in the program counter, and the
advance then adds 2 (the spec's own decision D3). -/
def Obligations.Set0ClearsTheBit : Prop :=
  ∀ (bit : BitVec 3) (opnd : Byte) (s : State), s.CurrentPc →
    encode (.set0 bit opnd) = [(0#2 ++ bit ++ 2#3 : BitVec 8), opnd] ∧
    ∃ t, exec (.set0 bit opnd) s = .next t ∧ t.keep = true ∧ s.SameBesideMemory t ∧
      (opnd ≠ 3#8 → t.memRead 3#8 = s.memRead 3#8 + 2#8 ∧
        ∀ k < 8, (t.memRead opnd).getLsbD k =
          if k = bit.toNat then false else (s.memRead opnd).getLsbD k) ∧
      (opnd = 3#8 → t.memRead 3#8 = (s.memRead 3#8 &&& ~~~(1#8 <<< bit.toNat)) + 2#8) ∧
      ∀ a : Addr, a ≠ 3#8 → a ≠ opnd → t.memRead a = s.memRead a

/-- SET1 (R128): as SET0, and the bit becomes 1 (with operand address 3, D3). -/
def Obligations.Set1SetsTheBit : Prop :=
  ∀ (bit : BitVec 3) (opnd : Byte) (s : State), s.CurrentPc →
    encode (.set1 bit opnd) = [(1#2 ++ bit ++ 2#3 : BitVec 8), opnd] ∧
    ∃ t, exec (.set1 bit opnd) s = .next t ∧ t.keep = true ∧ s.SameBesideMemory t ∧
      (opnd ≠ 3#8 → t.memRead 3#8 = s.memRead 3#8 + 2#8 ∧
        ∀ k < 8, (t.memRead opnd).getLsbD k =
          if k = bit.toNat then true else (s.memRead opnd).getLsbD k) ∧
      (opnd = 3#8 → t.memRead 3#8 = (s.memRead 3#8 ||| (1#8 <<< bit.toNat)) + 2#8) ∧
      ∀ a : Addr, a ≠ 3#8 → a ≠ opnd → t.memRead a = s.memRead a

/-- SKP0 (R129): the program counter advances by 4 if the bit is 0 and by 2 if it is 1; nothing else is
written. -/
def Obligations.Skp0SkipsWhenTheBitIsZero : Prop :=
  ∀ (bit : BitVec 3) (opnd : Byte) (s : State), s.CurrentPc →
    encode (.skp0 bit opnd) = [(2#2 ++ bit ++ 2#3 : BitVec 8), opnd] ∧
    RunsTo (.skp0 bit opnd) s true fun a => if a = 3#8 then
      s.memRead 3#8 + (if (s.memRead opnd).getLsbD bit.toNat then 2#8 else 4#8)
      else s.memRead a

/-- SKP1 (R130): the program counter advances by 4 if the bit is 1 and by 2 if it is 0. -/
def Obligations.Skp1SkipsWhenTheBitIsOne : Prop :=
  ∀ (bit : BitVec 3) (opnd : Byte) (s : State), s.CurrentPc →
    encode (.skp1 bit opnd) = [(3#2 ++ bit ++ 2#3 : BitVec 8), opnd] ∧
    RunsTo (.skp1 bit opnd) s true fun a => if a = 3#8 then
      s.memRead 3#8 + (if (s.memRead opnd).getLsbD bit.toNat then 4#8 else 2#8)
      else s.memRead a

/-- R132, over executions: after SET1 `b,a` SKP0 `b,a` advances by 2 and SKP1 `b,a` by 4, and after SET0
the reverse, for every bit and every address but 3, which the spec derives from R127 to R131. -/
def Obligations.SetThenSkipAgree : Prop :=
  ∀ (bit : BitVec 3) (opnd : Byte) (s : State), s.CurrentPc → opnd ≠ 3#8 →
    ∃ t u, exec (.set1 bit opnd) s = .next t ∧ exec (.set0 bit opnd) s = .next u ∧
      (∃ v, exec (.skp0 bit opnd) t = .next v ∧ v.memRead 3#8 = t.memRead 3#8 + 2#8) ∧
      (∃ v, exec (.skp1 bit opnd) t = .next v ∧ v.memRead 3#8 = t.memRead 3#8 + 4#8) ∧
      (∃ v, exec (.skp0 bit opnd) u = .next v ∧ v.memRead 3#8 = u.memRead 3#8 + 4#8) ∧
      (∃ v, exec (.skp1 bit opnd) u = .next v ∧ v.memRead 3#8 = u.memRead 3#8 + 2#8)

/-! ## Jumps -/

/-- JPD (R148): taken, the program counter is the operand byte; not taken, it advances by 2. Nothing else
is written. -/
def Obligations.JumpDirectGoesToTheOperand : Prop :=
  ∀ (test : JumpTest) (opnd : Byte) (s : State), s.CurrentPc →
    encode (.jpd test opnd) = [(test.fieldP ++ 4#3 ++ test.fieldR : BitVec 8), opnd] ∧
    (JumpHolds s test → RunsTo (.jpd test opnd) s true fun a =>
      if a = 3#8 then opnd else s.memRead a) ∧
    (¬ JumpHolds s test → RunsTo (.jpd test opnd) s true fun a =>
      if a = 3#8 then s.memRead 3#8 + 2#8 else s.memRead a)

/-- JPI (R149): as JPD, and the target is the byte at the operand address. -/
def Obligations.JumpIndirectGoesThroughTheOperand : Prop :=
  ∀ (test : JumpTest) (opnd : Byte) (s : State), s.CurrentPc →
    encode (.jpi test opnd) = [(test.fieldP ++ 5#3 ++ test.fieldR : BitVec 8), opnd] ∧
    (JumpHolds s test → RunsTo (.jpi test opnd) s true fun a =>
      if a = 3#8 then s.memRead opnd else s.memRead a) ∧
    (¬ JumpHolds s test → RunsTo (.jpi test opnd) s true fun a =>
      if a = 3#8 then s.memRead 3#8 + 2#8 else s.memRead a)

/-- JMD (R151): taken, the return address is stored at the target and execution continues one byte
after it, also where the target is address 3, whose mark is lost (R150); not taken, no mark is
stored. -/
def Obligations.JumpAndMarkDirectStoresTheReturnAddress : Prop :=
  ∀ (test : JumpTest) (opnd : Byte) (s : State), s.CurrentPc →
    encode (.jmd test opnd) = [(test.fieldP ++ 6#3 ++ test.fieldR : BitVec 8), opnd] ∧
    (JumpHolds s test → RunsTo (.jmd test opnd) s true fun a =>
      if a = 3#8 then opnd + 1#8 else if a = opnd then s.memRead 3#8 + 2#8 else s.memRead a) ∧
    (¬ JumpHolds s test → RunsTo (.jmd test opnd) s true fun a =>
      if a = 3#8 then s.memRead 3#8 + 2#8 else s.memRead a)

/-- JMI (R152): as JMD, and the target is the byte at the operand address, read before the store. -/
def Obligations.JumpAndMarkIndirectStoresTheReturnAddress : Prop :=
  ∀ (test : JumpTest) (opnd : Byte) (s : State), s.CurrentPc →
    encode (.jmi test opnd) = [(test.fieldP ++ 7#3 ++ test.fieldR : BitVec 8), opnd] ∧
    (JumpHolds s test → RunsTo (.jmi test opnd) s true fun a =>
      if a = 3#8 then s.memRead opnd + 1#8
      else if a = s.memRead opnd then s.memRead 3#8 + 2#8 else s.memRead a) ∧
    (¬ JumpHolds s test → RunsTo (.jmi test opnd) s true fun a =>
      if a = 3#8 then s.memRead 3#8 + 2#8 else s.memRead a)

/-- Call and return (R153): after a taken `JMD m`, an unconditional `JPI m` continues at the
instruction after the call, for every cell but address 3. -/
def Obligations.ReturnThroughTheMarkCell : Prop :=
  ∀ (test : JumpTest) (k : Cond) (m : Byte) (s : State), s.CurrentPc → m ≠ 3#8 →
    JumpHolds s test →
    ∃ t u, exec (.jmd test m) s = .next t ∧ exec (.jpi (.always k) m) t = .next u ∧
      u.memRead 3#8 = s.memRead 3#8 + 2#8

/-! ## Operands, logic and arithmetic -/

/-- The operand location of each addressing mode (R76; the formulas of modes 5 to 7 and the wrap are the
spec's own decisions D1 and D2). -/
def Obligations.EffectiveAddresses : Prop :=
  ∀ (s : State) (opnd : Byte),
    ea s .imm opnd = s.memRead 3#8 + 1#8 ∧ ea s .mem opnd = opnd ∧
    ea s .ind opnd = s.memRead opnd ∧ ea s .idx opnd = opnd + s.memRead 2#8 ∧
    ea s .indIdx opnd = s.memRead opnd + s.memRead 2#8

/-- OR (R162): A becomes A or the operand value `M[EA(mode)]`; no flag and no other byte changes but the
program counter. -/
def Obligations.OrWritesA : Prop :=
  ∀ (mode : AddrMode) (opnd : Byte) (s : State), s.CurrentPc →
    encode (.or mode opnd) = [(3#2 ++ 0#3 ++ mode.field : BitVec 8), opnd] ∧
    RunsTo (.or mode opnd) s true fun a => if a = 3#8 then s.memRead 3#8 + 2#8
      else if a = 0#8 then s.memRead 0#8 ||| s.memRead (ea s mode opnd) else s.memRead a

/-- AND (R163). -/
def Obligations.AndWritesA : Prop :=
  ∀ (mode : AddrMode) (opnd : Byte) (s : State), s.CurrentPc →
    encode (.and mode opnd) = [(3#2 ++ 2#3 ++ mode.field : BitVec 8), opnd] ∧
    RunsTo (.and mode opnd) s true fun a => if a = 3#8 then s.memRead 3#8 + 2#8
      else if a = 0#8 then s.memRead 0#8 &&& s.memRead (ea s mode opnd) else s.memRead a

/-- LNEG (R164): A becomes `(256 - v) mod 256`; `F[0]` keeps its value. -/
def Obligations.LnegNegatesIntoA : Prop :=
  ∀ (mode : AddrMode) (opnd : Byte) (s : State), s.CurrentPc →
    encode (.lneg mode opnd) = [(3#2 ++ 3#3 ++ mode.field : BitVec 8), opnd] ∧
    RunsTo (.lneg mode opnd) s true fun a => if a = 3#8 then s.memRead 3#8 + 2#8
      else if a = 0#8 then BitVec.ofNat 8 (256 - (s.memRead (ea s mode opnd)).toNat)
      else s.memRead a

/-- ADD (R178): the register gets the sum modulo 256; its flags byte is overwritten whole, bit 1 iff the
unsigned sum exceeds 255, bit 0 iff the signed sum leaves -128 to 127, the other bits 0. -/
def Obligations.AddWritesSumAndFlags : Prop :=
  ∀ (r : Reg) (mode : AddrMode) (opnd : Byte) (s : State), s.CurrentPc →
    encode (.add r mode opnd) = [(r.field ++ 0#3 ++ mode.field : BitVec 8), opnd] ∧
    RunsTo (.add r mode opnd) s true fun a =>
      let x := s.memRead (Reg.addr r)
      let v := s.memRead (ea s mode opnd)
      if a = 3#8 then s.memRead 3#8 + 2#8
      else if a = Reg.addr r then BitVec.ofNat 8 (x.toNat + v.toNat)
      else if a = Reg.flagsAddr r then
        (if 255 < x.toNat + v.toNat then 2#8 else 0#8) |||
        (if 127 < x.toInt + v.toInt ∨ x.toInt + v.toInt < -128 then 1#8 else 0#8)
      else s.memRead a

/-- SUB (R179): the register gets the difference modulo 256; bit 1 of its flags byte is a borrow, `a < v`
unsigned (the spec's own decision D9), bit 0 the signed overflow, the other bits 0. -/
def Obligations.SubWritesDifferenceAndFlags : Prop :=
  ∀ (r : Reg) (mode : AddrMode) (opnd : Byte) (s : State), s.CurrentPc →
    encode (.sub r mode opnd) = [(r.field ++ 1#3 ++ mode.field : BitVec 8), opnd] ∧
    RunsTo (.sub r mode opnd) s true fun a =>
      let x := s.memRead (Reg.addr r)
      let v := s.memRead (ea s mode opnd)
      if a = 3#8 then s.memRead 3#8 + 2#8
      else if a = Reg.addr r then BitVec.ofInt 8 ((x.toNat : Int) - v.toNat)
      else if a = Reg.flagsAddr r then
        (if x.toNat < v.toNat then 2#8 else 0#8) |||
        (if 127 < x.toInt - v.toInt ∨ x.toInt - v.toInt < -128 then 1#8 else 0#8)
      else s.memRead a

/-- The equivalent forms of the overflow flag that R178 and R179 give. -/
def Obligations.OverflowIsASignRule : Prop :=
  ∀ a v : Byte,
    addOverflow a v = (a.msb == v.msb && (a + v).msb != a.msb) ∧
    subOverflow a v = (a.msb != v.msb && (a - v).msb != a.msb)

/-- LOAD (R180): the register gets the operand value, with the old X as index; no flag changes (the
spec's own decision D7). -/
def Obligations.LoadCopiesTheOperand : Prop :=
  ∀ (r : Reg) (mode : AddrMode) (opnd : Byte) (s : State), s.CurrentPc →
    encode (.load r mode opnd) = [(r.field ++ 2#3 ++ mode.field : BitVec 8), opnd] ∧
    RunsTo (.load r mode opnd) s true fun a => if a = 3#8 then s.memRead 3#8 + 2#8
      else if a = Reg.addr r then s.memRead (ea s mode opnd) else s.memRead a

/-- STORE (R181): the byte at the operand location becomes the register, also in immediate mode, where
that is the instruction's own operand byte; a store to address 3 is followed by the advance, so that
the program continues at the register's value plus 2 (the spec's own decision D3). -/
def Obligations.StoreWritesTheOperandLocation : Prop :=
  ∀ (r : Reg) (mode : AddrMode) (opnd : Byte) (s : State), s.CurrentPc →
    encode (.store r mode opnd) = [(r.field ++ 3#3 ++ mode.field : BitVec 8), opnd] ∧
    RunsTo (.store r mode opnd) s true fun a =>
      if a = 3#8 then
        (if ea s mode opnd = 3#8 then s.memRead (Reg.addr r) else s.memRead 3#8) + 2#8
      else if a = ea s mode opnd then s.memRead (Reg.addr r) else s.memRead a

/-! ## Whole-machine rules -/

/-- The frame of every instruction: a byte of `M` that is not the program counter, not a destination
register (with its flags byte for ADD and SUB) and not the byte the instruction stores to is
unchanged, under the hooks the spec describes (R24, R60, R176, R211). That no other instruction
changes a flags byte is the spec's own decision D7 (log 15). -/
def Obligations.EveryOtherByteIsUnchanged : Prop :=
  ∀ (i : Instr) (s t : State), exec i s = .next t → s.KnownHook →
    ∀ a : Addr, a ≠ 3#8 → a ∉ destinations i → storeAddress s i ≠ some a →
      t.memRead a = s.memRead a

/-- What writes flags (R31): only ADD and SUB on the register write its flags byte as a side effect; any
other instruction changes it only by storing to its address (the spec's own decision D7). -/
def Obligations.OnlyAddAndSubWriteFlags : Prop :=
  ∀ (i : Instr) (s t : State) (r : Reg), exec i s = .next t → s.KnownHook →
    t.memRead (Reg.flagsAddr r) ≠ s.memRead (Reg.flagsAddr r) →
    (∃ mode opnd, i = .add r mode opnd ∨ i = .sub r mode opnd) ∨
    storeAddress s i = some (Reg.flagsAddr r)

/-- No instruction reaches the controller's state, the configuration flags or the other parameters (R34,
R36). R34 excepts what an outside store exposes through the system call, and `TOGGLE_MODE` is an item
of that store (R259). That no hook and no system call changes the controller's state or a parameter is
the model's choice (logs 14 and 16). -/
def Obligations.NoInstructionReachesTheController : Prop :=
  ∀ (i : Instr) (s t : State), exec i s = .next t → s.SameControl t

/-- The sources of `keep = false` (R202): a HALT; a hook that returns false; a store that refuses the
write of a system call. -/
def Obligations.SourcesOfKeepFalse : Prop :=
  ∀ (i : Instr) (s t : State), exec i s = .next t → t.keep = false →
    (∃ ign, i = .halt ign) ∨
    (∃ op n writes, IsExtension i op n ∧ s.params.hook = .custom ∧
      (s.askHook op).1 = .ran writes false) ∨
    (∃ n, IsSystemCall s i n ∧ (s.memRead 0#8).getLsbD 7 = true ∧
      (s.askCfgWrite s.sysIndex (s.memRead 1#8)).1 = false)

/-- A program cannot tell states apart that agree on `M`, on the parameters and on what the outside
answers: the step gives the same `M`, the same result, the same parameters and the same remaining
answers, whatever the controller's state and the last result were (R34, R36, R202). The states after
the step agree as the states before it did, so the statement can be iterated. -/
def Obligations.StepDependsOnlyOnMemoryAndAnswers : Prop :=
  ∀ s s' t : State, s'.mem = s.mem → s'.params = s.params → s'.oracle = s.oracle →
    step s = .next t →
    ∃ t', step s' = .next t' ∧ t'.mem = t.mem ∧ t'.params = t.params ∧ t'.oracle = t.oracle ∧
      t'.keep = t.keep

/-- Every step keeps the invariant: memory canonical, parameters legal, cycle delay in range. -/
def Obligations.StepKeepsTheStateSafe : Prop :=
  ∀ s t : State, s.safe = true → step s = .next t → t.safe = true

/-- Every cycle of the controller keeps it too, whatever is pressed and whatever the outside answers. -/
def Obligations.CycleKeepsTheStateSafe : Prop :=
  ∀ s t : State, s.safe = true → cycle s = .next t → t.safe = true

/-- The state after reset meets the invariant. -/
def Obligations.ResetIsSafe : Prop := State.reset.safe = true

/-- The reset values of R44, which that rule marks as the spec's own choice (D16; log 3): memory all
zero, so that every register, flag and latch is 0, halted, mode None, cursor 0, no delay, nothing
shown, both configuration flags false. The first step halts and leaves the program counter at 1
(R302). -/
def Obligations.ResetIsZeroAndHalted : Prop :=
  (∀ a : Addr, State.reset.memRead a = 0#8) ∧ State.reset.run = false ∧
  State.reset.mode = .none ∧ State.reset.cursor = 0#8 ∧ State.reset.delay = none ∧
  State.reset.disp = 0#8 ∧ State.reset.params.legacyShift = false ∧
  State.reset.params.legacyPc = false ∧
  ∃ t, step State.reset = .next t ∧ t.keep = false ∧
    ∀ a : Addr, t.memRead a = if a = 3#8 then 1#8 else 0#8

/-! ## The controller -/

/-- Every cycle ends with a render of the display byte and the control byte (R252, R275). -/
def Obligations.EveryCycleEndsWithARender : Prop :=
  ∀ s t : State, cycle s = .next t →
    ∃ earlier, t.sent = .render t.disp (controlByte t.params t.mode) :: earlier

/-- The control byte, bit by bit (R275): Input, Address and Memory indicators, bit 3 zero, and the Run
intensity above, 15 when the mode is not Run (the spec's own decision D19). -/
def Obligations.ControlByteBits : Prop :=
  ∀ (p : Params) (mode : DisplayMode),
    (controlByte p mode).getLsbD 0 = decide (mode = .input) ∧
    (controlByte p mode).getLsbD 1 = decide (mode = .address) ∧
    (controlByte p mode).getLsbD 2 = decide (mode = .memory) ∧
    (controlByte p mode).getLsbD 3 = false ∧
    (controlByte p mode).extractLsb' 4 4 = if mode = .run then p.runIntensity else 15#4

/-- A halted cycle whose debounced samples disagree, or whose sample holds no press, changes nothing but
what was asked and shown (R255, the spec's own decision D33). -/
def Obligations.HaltedCycleWithoutPressOnlyRenders : Prop :=
  ∀ s : State, s.run = false →
    (∀ sm, (s.askSample true).1 = some sm → newPresses s.params sm = []) →
    ∃ t, cycle s = .next t ∧ s.SameControl t ∧ t.mem = s.mem ∧ t.keep = s.keep ∧
      t.sent = .render s.disp (controlByte s.params s.mode) :: .sample true :: s.sent

/-- A running cycle whose sample presses no `STOP` dispatches its presses in order by the while-running
table, and then is exactly one step, after which the display follows the output latch in Run mode
(R252, R253, R271). The run goes on iff the step returned true (R254) and, with a cycle delay of `2^d`
ms, the sleep was not aborted (R277). That the presses come first, chords included, is the spec's own
decision D22. -/
def Obligations.RunningCycleIsOneStep : Prop :=
  ∀ (s u : State) (sm : Sample), s.run = true → (s.askSample false).1 = some sm →
    s.sampleRunning = (newPresses s.params sm).foldl
      (fun v b => dispatchRunning b (chordPartner s.params sm.state b) v) (s.askSample false).2 ∧
    (.stop ∉ newPresses s.params sm → step s.sampleRunning = .next u →
      ∃ t, cycle s = .next t ∧
      t.mem = u.mem ∧ t.disp = u.memRead 128#8 ∧ t.mode = .run ∧ t.cursor = s.cursor ∧
      t.delay = s.delay ∧
      t.run = (u.keep && match s.delay with
        | none => true
        | some d => (u.showOutput.askSleep (2 ^ d.toNat)).1))

/-- A Stop pressed while running, alone or with other buttons in the same sample, ends the run without
a step (R206, R252, R270; the spec's own decision D22): the cycle is the presses and the render, and
`M` is what the presses left. Pressed alone it leaves `M` and the display byte as they were, and shows
Run mode. -/
def Obligations.StopEndsTheRunWithoutAStep : Prop :=
  ∀ (s : State) (sm : Sample), s.run = true → (s.askSample false).1 = some sm →
    .stop ∈ newPresses s.params sm →
    ∃ t, cycle s = .next t ∧ t = s.sampleRunning.rendered ∧ t.run = false ∧
      t.mem = s.sampleRunning.mem ∧ t.keep = s.keep ∧
      (newPresses s.params sm = [.stop] → t.mode = .run ∧ t.mem = s.mem ∧ t.disp = s.disp)

/-- When a run ends, for whatever reason, the panel is halted in Run mode (R254), unless a digit or
`CLR` was dispatched after `STOP` in the sample that ended it; and without exception where no button's
bit lies above `STOP`'s, as in the default order (R246, R256; the order of dispatch is the spec's own
decision D18, and what a later press shows is log 22). -/
def Obligations.RunEndsInRunMode : Prop :=
  ∀ s t : State, EndsRun s t →
    (t.mode = .run ∨ ∃ sm before after, (s.askSample false).1 = some sm ∧
      newPresses s.params sm = before ++ .stop :: after ∧
      ((∃ k, .digit k ∈ after) ∨ .clr ∈ after)) ∧
    ((∀ b, s.params.bitOf b ≤ s.params.bitOf .stop) → t.mode = .run)

/-- While running, a press of `DISP`, `SET`, `READ`, `STORE` or `START` is ignored: a press that changes
anything is a digit, `CLR` or `STOP` (R271). These three do what they do while halted, whatever the
chord (R258, R261, R270). Both are the spec's own decision D22. -/
def Obligations.OtherButtonsAreIgnoredWhileRunning : Prop :=
  ∀ (b : Button) (partner : Option Button) (s : State),
    (dispatchRunning b partner s ≠ s → (∃ k, b = .digit k) ∨ b = .clr ∨ b = .stop) ∧
    ((∃ k, b = .digit k) ∨ b = .clr ∨ b = .stop →
      dispatchHalted b partner s = .next (dispatchRunning b partner s))

/-- The chord partner (R256): another button that is held, with no such button before it in scan order;
and the sentinel only where there is none (the spec's own decision D18). -/
def Obligations.ChordPartnerIsTheFirstHeld : Prop :=
  ∀ (p : Params) (held : BitVec 16) (b : Button),
    (∀ c, chordPartner p held b = some c →
      ∃ before after, p.chordScan = before ++ c :: after ∧ c ≠ b ∧
        held.getLsbD (p.bitOf c) = true ∧
        ∀ d ∈ before, d = b ∨ held.getLsbD (p.bitOf d) = false) ∧
    (chordPartner p held b = none →
      ∀ c ∈ p.chordScan, c = b ∨ held.getLsbD (p.bitOf c) = false)

/-- The digit button (R258, R259): with `TOGGLE_MODE` it flips exactly its bit of the input latch,
without it it sets it; the latch is shown in Input mode (the spec's own decision D19) and no other
byte changes. -/
def Obligations.DigitButtonChangesOneLatchBit : Prop :=
  ∀ (k : Fin 8) (partner : Option Button) (s : State), partner ≠ some .stop →
    ∃ t, dispatchHalted (.digit k) partner s = .next t ∧ t.mode = .input ∧
      t.disp = t.memRead 255#8 ∧ t.run = s.run ∧ t.cursor = s.cursor ∧ t.delay = s.delay ∧
      (∀ b < 8, (t.memRead 255#8).getLsbD b = if b = k.val then
          (if s.params.toggleMode then !(s.memRead 255#8).getLsbD b else true)
        else (s.memRead 255#8).getLsbD b) ∧
      ∀ a : Addr, a ≠ 255#8 → t.memRead a = s.memRead a

/-- The clear button and `STORE` chorded with `CLR` (R261, R268): clear the latch; with `STOP` blank the
display and leave the latch; with `STORE` zero all of `M` and set the cursor to 4. What each
shows is the spec's own decision D19. -/
def Obligations.ClearCommands : Prop :=
  ∀ (partner : Option Button) (s : State),
    (partner ≠ some .stop → ∃ t, dispatchHalted .clr partner s = .next t ∧ t.disp = 0#8 ∧
      t.mode = .input ∧ ∀ a : Addr, t.memRead a = if a = 255#8 then 0#8 else s.memRead a) ∧
    (∃ t, dispatchHalted .clr (some .stop) s = .next t ∧ t.disp = 0#8 ∧ t.mode = .none ∧
      t.mem = s.mem) ∧
    (∃ t, dispatchHalted .store (some .clr) s = .next t ∧ t.cursor = 4#8 ∧ t.disp = 0#8 ∧
      t.mode = .none ∧ ∀ a : Addr, t.memRead a = 0#8)

/-- The address and memory buttons but for the commands that move whole programs. With no partner or one
that the entry does not list (R257, D18): `DISP` shows the cursor (R262); `SET` loads it from the input
latch (R264); `READ` shows the byte at the cursor and moves on (R266); `STORE` stores the input latch
at the cursor and moves on (R267). With `STOP`, `READ` puts in B, and shows, what the store answers for
the index in A, or 0 for the index of the capability probe (log 25); `STORE` asks the store to write B
and changes nothing (R266, R267; D21). What each shows is the spec's own decision D19, and what the
last leaves shown is log 11. -/
def Obligations.AddressAndMemoryButtons : Prop :=
  ∀ (partner : Option Button) (s : State),
    ((∀ k, partner ≠ some (.digit k)) →
      (∃ t, dispatchHalted .disp partner s = .next t ∧ t.disp = s.cursor ∧ t.mode = .address ∧
        t.cursor = s.cursor ∧ t.run = s.run ∧ t.mem = s.mem) ∧
      (∃ t, dispatchHalted .set partner s = .next t ∧ t.cursor = s.memRead 255#8 ∧
        t.disp = s.memRead 255#8 ∧ t.mode = .address ∧ t.run = s.run ∧ t.mem = s.mem) ∧
      (partner ≠ some .stop →
        ∃ t, dispatchHalted .read partner s = .next t ∧ t.disp = s.memRead s.cursor ∧
          t.cursor = s.cursor + 1#8 ∧ t.mode = .memory ∧ t.run = s.run ∧ t.mem = s.mem) ∧
      (partner ≠ some .stop → partner ≠ some .clr →
        ∃ t, dispatchHalted .store partner s = .next t ∧ t.disp = s.memRead 255#8 ∧
          t.cursor = s.cursor + 1#8 ∧ t.mode = .memory ∧ t.run = s.run ∧
          ∀ a : Addr, t.memRead a = if a = s.cursor then s.memRead 255#8 else s.memRead a)) ∧
    (∃ t, dispatchHalted .read (some .stop) s = .next t ∧ t.disp = t.memRead 1#8 ∧ t.mode = .none ∧
      t.run = s.run ∧ t.cursor = s.cursor ∧
      (∀ a : Addr, a ≠ 1#8 → t.memRead a = s.memRead a) ∧
      (s.sysIndex = 0x7F#7 → t.memRead 1#8 = 0#8 ∧ t.sent = s.sent) ∧
      (s.sysIndex ≠ 0x7F#7 → t.memRead 1#8 = (s.askCfgRead s.sysIndex).1 ∧
        t.sent = .cfgRead s.sysIndex :: s.sent)) ∧
    (∃ t, dispatchHalted .store (some .stop) s = .next t ∧ s.SameControl t ∧ t.mem = s.mem ∧
      t.sent = .cfgWrite s.sysIndex (s.memRead 1#8) :: s.sent)

/-- The run buttons (R269, R270): `START` sets `run`; chorded with `STOP` it is one step that leaves `run`
and shows the output latch; `STOP` chorded with digit `k` sets the cycle delay's exponent to `k`, and
always halts in Run mode. What each shows is the spec's own decision, D19 and D30. -/
def Obligations.RunButtons : Prop :=
  ∀ (partner : Option Button) (s : State),
    (partner ≠ some .stop → ∃ t, dispatchHalted .start partner s = .next t ∧ t.run = true ∧
      t.mode = .run ∧ t.mem = s.mem) ∧
    (∀ u, step s = .next u → ∃ t, dispatchHalted .start (some .stop) s = .next t ∧
      t.mem = u.mem ∧ t.run = s.run ∧ t.disp = u.memRead 128#8 ∧ t.mode = .run) ∧
    (∃ t, dispatchHalted .stop partner s = .next t ∧ t.run = false ∧ t.mode = .run ∧
      t.mem = s.mem ∧ t.disp = s.disp ∧
      t.delay = match partner with
        | some (.digit k) => some (BitVec.ofNat 4 k.val)
        | _ => s.delay)

/-- The serial protocol's round trip (R249, 95 S6), for every newline that is made of delimiters and
every choice of the points the grammar leaves open (log 10): the characters of a dump of all 256 bytes
from any address parse to 256 bytes that, stored from there, reproduce the memory. It holds of the
panel's commands: what `DISP` with a digit sends, with the model's own newline, is what `SET` with a
digit reloads into any other memory, and the summary reports 256 bytes and their sum modulo 256. The
dump leaves the controller's state as it is by R263; that the load leaves the display byte and the mode
too, for which R265 names no new value, is the model's choice (log 11). -/
def Obligations.SerialDumpReloadsExactly : Prop :=
  (∀ (rules : SerialRules) (newline : List Byte) (s u : State) (start : Addr),
    (∀ c ∈ newline, digitValue rules false c = none ∧ isStopChar c = false ∧
      isHexChar c = false) →
    let sent := dumpBytes newline (s.bytesFrom start 256)
    let loaded := parseBytes rules sent
    loaded.length = 256 ∧
    (∀ a : Addr, (u.memWriteAll (writesFrom start loaded)).memRead a = s.memRead a) ∧
    (checksum loaded).toNat =
      ((List.range 256).map fun k => (s.memRead (BitVec.ofNat 8 k)).toNat).sum % 256) ∧
  (∀ (k j : Fin 8) (s u : State) (start : Addr), (s.askDumpRange k).1 = ⟨start, 256⟩ →
    ∃ t chars, dispatchHalted .disp (some (.digit k)) s = .next t ∧
      t.sent = .serialOut chars :: s.sent ∧ s.SameControl t ∧ t.mem = s.mem ∧
      ∀ limit, 256 ≤ limit → (u.askSerialLoad j).1 = ⟨start, limit, chars⟩ →
        ∃ v, dispatchHalted .set (some (.digit j)) u = .next v ∧ u.SameControl v ∧
          (∀ a : Addr, v.memRead a = s.memRead a) ∧
          ∃ sum : Byte, v.sent = .serialSummary 256 sum :: .serialLoad j :: u.sent ∧
            sum.toNat =
              ((List.range 256).map fun k => (s.memRead (BitVec.ofNat 8 k)).toNat).sum % 256)
end

