-- ==== Sys2Proof/Laws/Decode.lean ====
section
/-! SUPPORT. The decoder looks at the operand byte only to put it into the instruction, so that a fact
about decoding is a fact about 256 opcodes. -/

namespace Sys2Proof

/-- The same instruction with another operand byte, if it has one. -/
def Instr.withOperand (i : Instr) (x : Byte) : Instr :=
  match i with
  | .halt ign => .halt ign
  | .nop ign => .nop ign
  | .ext1 op => .ext1 op
  | .sftr r count => .sftr r count
  | .rotr r count => .rotr r count
  | .sftl r count => .sftl r count
  | .rotl r count => .rotl r count
  | .set0 bit _ => .set0 bit x
  | .set1 bit _ => .set1 bit x
  | .skp0 bit _ => .skp0 bit x
  | .skp1 bit _ => .skp1 bit x
  | .jpd test _ => .jpd test x
  | .jpi test _ => .jpi test x
  | .jmd test _ => .jmd test x
  | .jmi test _ => .jmi test x
  | .or mode _ => .or mode x
  | .ext2 mode _ => .ext2 mode x
  | .and mode _ => .and mode x
  | .lneg mode _ => .lneg mode x
  | .add r mode _ => .add r mode x
  | .sub r mode _ => .sub r mode x
  | .load r mode _ => .load r mode x
  | .store r mode _ => .store r mode x

@[simp] theorem Instr.withOperand_wf (i : Instr) (x : Byte) : (i.withOperand x).wf = i.wf := by
  cases i <;> rfl

@[simp] theorem Instr.withOperand_opcode (i : Instr) (x : Byte) :
    (i.withOperand x).opcode = i.opcode := by
  cases i <;> rfl

/-- The operand byte is only carried along. -/
theorem decodeBytes_operand (op x : Byte) :
    decodeBytes op x = (decodeBytes op 0#8).withOperand x := by
  simp only [decodeBytes, decodeOneByte, decodeShift, decodeBit, decodeJump, decodeLogic,
    decodeArith]
  split_ifs <;> rfl

/-- What the decoder reads from a one-byte opcode. -/
theorem decode_one (op : Byte) (rest : List Byte) (h : opcodeLength op = 1) :
    decode (op :: rest) = .ok (decodeBytes op 0#8, rest) := by simp [decode, h]

/-- What the decoder reads from a two-byte opcode and its operand byte. -/
theorem decode_two (op x : Byte) (rest : List Byte) (h : opcodeLength op = 2) :
    decode (op :: x :: rest) = .ok (decodeBytes op x, rest) := by simp [decode, h]

end Sys2Proof
end

