-- ==== Sys2Proof/Laws/Memory.lean ====
section
/-! SUPPORT. The laws of one byte of memory: read after write, and the canonical form. The read laws hold
of every list, canonical or not. -/

namespace Sys2Proof.Machine

@[simp] theorem Memory.read_nil (a : Nat) : Memory.read [] a = 0#8 := rfl

theorem Memory.read_cons (c : Host.Cell) (m : Memory) (a : Nat) :
    Memory.read (c :: m) a = if c.1 = a then c.2 else Memory.read m a := rfl

/-- Erasing an address makes it unlisted and leaves every other address alone. -/
theorem Memory.read_erase (m : Memory) (a b : Nat) :
    Memory.read (Memory.erase m a) b = if b = a then 0#8 else Memory.read m b := by
  induction m with
  | nil => simp [Memory.erase]
  | cons c rest ih =>
    unfold Memory.erase at ih ⊢
    by_cases hc : c.1 = a
    · simp only [List.filter_cons, hc, bne_self_eq_false, Bool.false_eq_true, if_false, ih,
        Memory.read_cons]
      by_cases hb : b = a
      · simp [hb]
      · simp [hb, Ne.symm hb]
    · simp only [List.filter_cons, bne_iff_ne, ne_eq, hc, not_false_eq_true, if_true,
        Memory.read_cons, ih]
      by_cases hb : c.1 = b
      · simp [hb, show b ≠ a from hb ▸ hc]
      · simp [hb]

/-- A cell whose address is not in the list is found after it is inserted. -/
theorem Memory.read_insert_same (m : Memory) (a : Nat) (v : Byte) (h : ∀ c ∈ m, c.1 ≠ a) :
    Memory.read (Memory.insert (a, v) m) a = v := by
  induction m with
  | nil => simp [Memory.insert, Memory.read_cons]
  | cons c rest ih =>
    have hc : c.1 ≠ a := h c (by simp)
    unfold Memory.insert
    split
    · simp [Memory.read_cons]
    · simp [Memory.read_cons, hc, ih fun d hd => h d (by simp [hd])]

theorem Memory.read_insert_other (m : Memory) (a b : Nat) (v : Byte) (h : b ≠ a) :
    Memory.read (Memory.insert (a, v) m) b = Memory.read m b := by
  induction m with
  | nil => simp [Memory.insert, Memory.read_cons, Ne.symm h]
  | cons c rest ih =>
    unfold Memory.insert
    split
    · simp [Memory.read_cons, Ne.symm h]
    · simp [Memory.read_cons, ih]

/-- A read after a write: the written byte at its address, and every other byte as before. -/
theorem Memory.read_write (m : Memory) (a b : Nat) (v : Byte) :
    Memory.read (Memory.write m a v) b = if b = a then v else Memory.read m b := by
  have gone : ∀ c ∈ Memory.erase m a, c.1 ≠ a := by
    intro c hc
    simpa using (List.mem_filter.mp hc).2
  unfold Memory.write
  split
  · rename_i hv
    rw [Memory.read_erase]
    simp [hv, Memory.unlisted]
  · by_cases hb : b = a
    · simp [hb, Memory.read_insert_same _ _ _ gone]
    · simp [hb, Memory.read_insert_other _ _ _ _ hb, Memory.read_erase]

/-! ## The canonical form -/

theorem Memory.wfFrom_cons (low : Nat) (c : Host.Cell) (m : Memory) :
    Memory.wfFrom low (c :: m) = true ↔
      (low ≤ c.1 ∧ c.1 < 256 ∧ c.2 ≠ 0#8 ∧ Memory.wfFrom (c.1 + 1) m = true) := by
  simp [Memory.wfFrom, Memory.unlisted, and_assoc]

theorem Memory.wfFrom_mono (m : Memory) {low low' : Nat} (h : low' ≤ low)
    (hm : Memory.wfFrom low m = true) : Memory.wfFrom low' m = true := by
  cases m with
  | nil => rfl
  | cons c rest =>
    rw [Memory.wfFrom_cons] at hm ⊢
    exact ⟨h.trans hm.1, hm.2⟩

theorem Memory.wfFrom_erase (m : Memory) (low a : Nat) (hm : Memory.wfFrom low m = true) :
    Memory.wfFrom low (Memory.erase m a) = true := by
  induction m generalizing low with
  | nil => rfl
  | cons c rest ih =>
    rw [Memory.wfFrom_cons] at hm
    have hrest := ih (c.1 + 1) hm.2.2.2
    unfold Memory.erase at hrest ⊢
    rw [List.filter_cons]
    split
    · rw [Memory.wfFrom_cons]
      exact ⟨hm.1, hm.2.1, hm.2.2.1, hrest⟩
    · exact Memory.wfFrom_mono _ (by omega) hrest

theorem Memory.wfFrom_insert (m : Memory) (low a : Nat) (v : Byte) (hlow : low ≤ a)
    (ha : a < 256) (hv : v ≠ 0#8) (fresh : ∀ c ∈ m, c.1 ≠ a)
    (hm : Memory.wfFrom low m = true) :
    Memory.wfFrom low (Memory.insert (a, v) m) = true := by
  induction m generalizing low with
  | nil =>
    simp only [Memory.insert, Memory.wfFrom_cons]
    exact ⟨hlow, ha, hv, rfl⟩
  | cons c rest ih =>
    have hc : c.1 ≠ a := fresh c (by simp)
    rw [Memory.wfFrom_cons] at hm
    unfold Memory.insert
    split
    · rename_i hlt
      simp only [Memory.wfFrom_cons]
      exact ⟨hlow, ha, hv, hlt, hm.2.1, hm.2.2.1, hm.2.2.2⟩
    · rename_i hlt
      have hlt : ¬ a < c.1 := hlt
      rw [Memory.wfFrom_cons]
      exact ⟨hm.1, hm.2.1, hm.2.2.1,
        ih (c.1 + 1) (by omega) (fun d hd => fresh d (by simp [hd])) hm.2.2.2⟩

/-- A write inside the array keeps the canonical form. -/
theorem Memory.wf_write (m : Memory) (a : Nat) (v : Byte) (ha : a < 256)
    (hm : Memory.wf m = true) : Memory.wf (Memory.write m a v) = true := by
  have he := Memory.wfFrom_erase m 0 a hm
  unfold Memory.write
  split
  · exact he
  · rename_i hv
    refine Memory.wfFrom_insert _ 0 a v (by omega) ha hv ?_ he
    intro c hc
    simpa using (List.mem_filter.mp hc).2

/-- Several writes keep the canonical form. -/
theorem Memory.wf_writeAll (ws : Writes) (m : Memory) (hm : Memory.wf m = true) :
    Memory.wf (Memory.writeAll m ws) = true := by
  induction ws generalizing m with
  | nil => exact hm
  | cons w rest ih => exact ih _ (Memory.wf_write m _ _ w.1.isLt hm)

/-- Below its lowest address a canonical list reads as an unlisted one. -/
theorem Memory.read_below (m : Memory) (low a : Nat) (hm : Memory.wfFrom low m = true)
    (ha : a < low) : Memory.read m a = 0#8 := by
  induction m generalizing low with
  | nil => rfl
  | cons c rest ih =>
    rw [Memory.wfFrom_cons] at hm
    rw [Memory.read_cons, if_neg (by omega)]
    exact ih (c.1 + 1) hm.2.2.2 (by omega)

/-- Canonical memories that read the same at every address are the same list. -/
theorem Memory.ext_of_wfFrom (m n : Memory) (low : Nat) (hm : Memory.wfFrom low m = true)
    (hn : Memory.wfFrom low n = true) (h : ∀ a, Memory.read m a = Memory.read n a) : m = n := by
  induction m generalizing n low with
  | nil =>
    cases n with
    | nil => rfl
    | cons d rest =>
      rw [Memory.wfFrom_cons] at hn
      exact absurd (by simpa [Memory.read_cons] using (h d.1).symm) hn.2.2.1
  | cons c m ih =>
    rw [Memory.wfFrom_cons] at hm
    cases n with
    | nil => exact absurd (by simpa [Memory.read_cons] using h c.1) hm.2.2.1
    | cons d n =>
      rw [Memory.wfFrom_cons] at hn
      have haddr : c.1 = d.1 := by
        rcases Nat.lt_trichotomy c.1 d.1 with hlt | heq | hgt
        · have := h c.1
          rw [Memory.read_cons, Memory.read_cons, if_pos rfl, if_neg (by omega),
            Memory.read_below n (d.1 + 1) c.1 hn.2.2.2 (by omega)] at this
          exact absurd this hm.2.2.1
        · exact heq
        · have := h d.1
          rw [Memory.read_cons, Memory.read_cons, if_neg (by omega), if_pos rfl,
            Memory.read_below m (c.1 + 1) d.1 hm.2.2.2 (by omega)] at this
          exact absurd this.symm hn.2.2.1
      have hval : c.2 = d.2 := by simpa [Memory.read_cons, haddr] using h c.1
      have hrest : m = n := by
        refine ih n (c.1 + 1) hm.2.2.2 (haddr ▸ hn.2.2.2) fun a => ?_
        by_cases ha : a < c.1 + 1
        · rw [Memory.read_below m _ a hm.2.2.2 ha, Memory.read_below n _ a hn.2.2.2 (haddr ▸ ha)]
        · simpa [Memory.read_cons, show c.1 ≠ a by omega, show d.1 ≠ a by omega] using h a
      rw [Prod.ext haddr hval, hrest]

end Sys2Proof.Machine
end

