-- ==== Sys2Proof/Laws/State.lean ====
section
/-! SUPPORT. One lemma per field per update of State, so that no proof unfolds a record update. -/

namespace Sys2Proof.Machine

/-! ## memWrite -/

@[simp] theorem State.memWrite_mem (s : State) (a : Addr) (v : Byte) : (s.memWrite a v).mem = Memory.write s.mem a.toNat v := rfl
@[simp] theorem State.memWrite_run (s : State) (a : Addr) (v : Byte) : (s.memWrite a v).run = s.run := rfl
@[simp] theorem State.memWrite_mode (s : State) (a : Addr) (v : Byte) : (s.memWrite a v).mode = s.mode := rfl
@[simp] theorem State.memWrite_cursor (s : State) (a : Addr) (v : Byte) : (s.memWrite a v).cursor = s.cursor := rfl
@[simp] theorem State.memWrite_delay (s : State) (a : Addr) (v : Byte) : (s.memWrite a v).delay = s.delay := rfl
@[simp] theorem State.memWrite_disp (s : State) (a : Addr) (v : Byte) : (s.memWrite a v).disp = s.disp := rfl
@[simp] theorem State.memWrite_params (s : State) (a : Addr) (v : Byte) : (s.memWrite a v).params = s.params := rfl
@[simp] theorem State.memWrite_keep (s : State) (a : Addr) (v : Byte) : (s.memWrite a v).keep = s.keep := rfl
@[simp] theorem State.memWrite_oracle (s : State) (a : Addr) (v : Byte) : (s.memWrite a v).oracle = s.oracle := rfl
@[simp] theorem State.memWrite_sent (s : State) (a : Addr) (v : Byte) : (s.memWrite a v).sent = s.sent := rfl

/-! ## memWriteAll -/

@[simp] theorem State.memWriteAll_mem (s : State) (ws : Writes) : (s.memWriteAll ws).mem = Memory.writeAll s.mem ws := rfl
@[simp] theorem State.memWriteAll_run (s : State) (ws : Writes) : (s.memWriteAll ws).run = s.run := rfl
@[simp] theorem State.memWriteAll_mode (s : State) (ws : Writes) : (s.memWriteAll ws).mode = s.mode := rfl
@[simp] theorem State.memWriteAll_cursor (s : State) (ws : Writes) : (s.memWriteAll ws).cursor = s.cursor := rfl
@[simp] theorem State.memWriteAll_delay (s : State) (ws : Writes) : (s.memWriteAll ws).delay = s.delay := rfl
@[simp] theorem State.memWriteAll_disp (s : State) (ws : Writes) : (s.memWriteAll ws).disp = s.disp := rfl
@[simp] theorem State.memWriteAll_params (s : State) (ws : Writes) : (s.memWriteAll ws).params = s.params := rfl
@[simp] theorem State.memWriteAll_keep (s : State) (ws : Writes) : (s.memWriteAll ws).keep = s.keep := rfl
@[simp] theorem State.memWriteAll_oracle (s : State) (ws : Writes) : (s.memWriteAll ws).oracle = s.oracle := rfl
@[simp] theorem State.memWriteAll_sent (s : State) (ws : Writes) : (s.memWriteAll ws).sent = s.sent := rfl

/-! ## clearAllMemory -/

@[simp] theorem State.clearAllMemory_mem (s : State) : s.clearAllMemory.mem = [] := rfl
@[simp] theorem State.clearAllMemory_run (s : State) : s.clearAllMemory.run = s.run := rfl
@[simp] theorem State.clearAllMemory_mode (s : State) : s.clearAllMemory.mode = s.mode := rfl
@[simp] theorem State.clearAllMemory_cursor (s : State) : s.clearAllMemory.cursor = s.cursor := rfl
@[simp] theorem State.clearAllMemory_delay (s : State) : s.clearAllMemory.delay = s.delay := rfl
@[simp] theorem State.clearAllMemory_disp (s : State) : s.clearAllMemory.disp = s.disp := rfl
@[simp] theorem State.clearAllMemory_params (s : State) : s.clearAllMemory.params = s.params := rfl
@[simp] theorem State.clearAllMemory_keep (s : State) : s.clearAllMemory.keep = s.keep := rfl
@[simp] theorem State.clearAllMemory_oracle (s : State) : s.clearAllMemory.oracle = s.oracle := rfl
@[simp] theorem State.clearAllMemory_sent (s : State) : s.clearAllMemory.sent = s.sent := rfl

/-! ## withRun -/

@[simp] theorem State.withRun_mem (s : State) (v : Bool) : (s.withRun v).mem = s.mem := rfl
@[simp] theorem State.withRun_run (s : State) (v : Bool) : (s.withRun v).run = v := rfl
@[simp] theorem State.withRun_mode (s : State) (v : Bool) : (s.withRun v).mode = s.mode := rfl
@[simp] theorem State.withRun_cursor (s : State) (v : Bool) : (s.withRun v).cursor = s.cursor := rfl
@[simp] theorem State.withRun_delay (s : State) (v : Bool) : (s.withRun v).delay = s.delay := rfl
@[simp] theorem State.withRun_disp (s : State) (v : Bool) : (s.withRun v).disp = s.disp := rfl
@[simp] theorem State.withRun_params (s : State) (v : Bool) : (s.withRun v).params = s.params := rfl
@[simp] theorem State.withRun_keep (s : State) (v : Bool) : (s.withRun v).keep = s.keep := rfl
@[simp] theorem State.withRun_oracle (s : State) (v : Bool) : (s.withRun v).oracle = s.oracle := rfl
@[simp] theorem State.withRun_sent (s : State) (v : Bool) : (s.withRun v).sent = s.sent := rfl

/-! ## withMode -/

@[simp] theorem State.withMode_mem (s : State) (v : DisplayMode) : (s.withMode v).mem = s.mem := rfl
@[simp] theorem State.withMode_run (s : State) (v : DisplayMode) : (s.withMode v).run = s.run := rfl
@[simp] theorem State.withMode_mode (s : State) (v : DisplayMode) : (s.withMode v).mode = v := rfl
@[simp] theorem State.withMode_cursor (s : State) (v : DisplayMode) : (s.withMode v).cursor = s.cursor := rfl
@[simp] theorem State.withMode_delay (s : State) (v : DisplayMode) : (s.withMode v).delay = s.delay := rfl
@[simp] theorem State.withMode_disp (s : State) (v : DisplayMode) : (s.withMode v).disp = s.disp := rfl
@[simp] theorem State.withMode_params (s : State) (v : DisplayMode) : (s.withMode v).params = s.params := rfl
@[simp] theorem State.withMode_keep (s : State) (v : DisplayMode) : (s.withMode v).keep = s.keep := rfl
@[simp] theorem State.withMode_oracle (s : State) (v : DisplayMode) : (s.withMode v).oracle = s.oracle := rfl
@[simp] theorem State.withMode_sent (s : State) (v : DisplayMode) : (s.withMode v).sent = s.sent := rfl

/-! ## withCursor -/

@[simp] theorem State.withCursor_mem (s : State) (v : Addr) : (s.withCursor v).mem = s.mem := rfl
@[simp] theorem State.withCursor_run (s : State) (v : Addr) : (s.withCursor v).run = s.run := rfl
@[simp] theorem State.withCursor_mode (s : State) (v : Addr) : (s.withCursor v).mode = s.mode := rfl
@[simp] theorem State.withCursor_cursor (s : State) (v : Addr) : (s.withCursor v).cursor = v := rfl
@[simp] theorem State.withCursor_delay (s : State) (v : Addr) : (s.withCursor v).delay = s.delay := rfl
@[simp] theorem State.withCursor_disp (s : State) (v : Addr) : (s.withCursor v).disp = s.disp := rfl
@[simp] theorem State.withCursor_params (s : State) (v : Addr) : (s.withCursor v).params = s.params := rfl
@[simp] theorem State.withCursor_keep (s : State) (v : Addr) : (s.withCursor v).keep = s.keep := rfl
@[simp] theorem State.withCursor_oracle (s : State) (v : Addr) : (s.withCursor v).oracle = s.oracle := rfl
@[simp] theorem State.withCursor_sent (s : State) (v : Addr) : (s.withCursor v).sent = s.sent := rfl

/-! ## withDelay -/

@[simp] theorem State.withDelay_mem (s : State) (v : Option (BitVec 4)) : (s.withDelay v).mem = s.mem := rfl
@[simp] theorem State.withDelay_run (s : State) (v : Option (BitVec 4)) : (s.withDelay v).run = s.run := rfl
@[simp] theorem State.withDelay_mode (s : State) (v : Option (BitVec 4)) : (s.withDelay v).mode = s.mode := rfl
@[simp] theorem State.withDelay_cursor (s : State) (v : Option (BitVec 4)) : (s.withDelay v).cursor = s.cursor := rfl
@[simp] theorem State.withDelay_delay (s : State) (v : Option (BitVec 4)) : (s.withDelay v).delay = v := rfl
@[simp] theorem State.withDelay_disp (s : State) (v : Option (BitVec 4)) : (s.withDelay v).disp = s.disp := rfl
@[simp] theorem State.withDelay_params (s : State) (v : Option (BitVec 4)) : (s.withDelay v).params = s.params := rfl
@[simp] theorem State.withDelay_keep (s : State) (v : Option (BitVec 4)) : (s.withDelay v).keep = s.keep := rfl
@[simp] theorem State.withDelay_oracle (s : State) (v : Option (BitVec 4)) : (s.withDelay v).oracle = s.oracle := rfl
@[simp] theorem State.withDelay_sent (s : State) (v : Option (BitVec 4)) : (s.withDelay v).sent = s.sent := rfl

/-! ## withDisp -/

@[simp] theorem State.withDisp_mem (s : State) (v : Byte) : (s.withDisp v).mem = s.mem := rfl
@[simp] theorem State.withDisp_run (s : State) (v : Byte) : (s.withDisp v).run = s.run := rfl
@[simp] theorem State.withDisp_mode (s : State) (v : Byte) : (s.withDisp v).mode = s.mode := rfl
@[simp] theorem State.withDisp_cursor (s : State) (v : Byte) : (s.withDisp v).cursor = s.cursor := rfl
@[simp] theorem State.withDisp_delay (s : State) (v : Byte) : (s.withDisp v).delay = s.delay := rfl
@[simp] theorem State.withDisp_disp (s : State) (v : Byte) : (s.withDisp v).disp = v := rfl
@[simp] theorem State.withDisp_params (s : State) (v : Byte) : (s.withDisp v).params = s.params := rfl
@[simp] theorem State.withDisp_keep (s : State) (v : Byte) : (s.withDisp v).keep = s.keep := rfl
@[simp] theorem State.withDisp_oracle (s : State) (v : Byte) : (s.withDisp v).oracle = s.oracle := rfl
@[simp] theorem State.withDisp_sent (s : State) (v : Byte) : (s.withDisp v).sent = s.sent := rfl

/-! ## withKeep -/

@[simp] theorem State.withKeep_mem (s : State) (v : Bool) : (s.withKeep v).mem = s.mem := rfl
@[simp] theorem State.withKeep_run (s : State) (v : Bool) : (s.withKeep v).run = s.run := rfl
@[simp] theorem State.withKeep_mode (s : State) (v : Bool) : (s.withKeep v).mode = s.mode := rfl
@[simp] theorem State.withKeep_cursor (s : State) (v : Bool) : (s.withKeep v).cursor = s.cursor := rfl
@[simp] theorem State.withKeep_delay (s : State) (v : Bool) : (s.withKeep v).delay = s.delay := rfl
@[simp] theorem State.withKeep_disp (s : State) (v : Bool) : (s.withKeep v).disp = s.disp := rfl
@[simp] theorem State.withKeep_params (s : State) (v : Bool) : (s.withKeep v).params = s.params := rfl
@[simp] theorem State.withKeep_keep (s : State) (v : Bool) : (s.withKeep v).keep = v := rfl
@[simp] theorem State.withKeep_oracle (s : State) (v : Bool) : (s.withKeep v).oracle = s.oracle := rfl
@[simp] theorem State.withKeep_sent (s : State) (v : Bool) : (s.withKeep v).sent = s.sent := rfl

/-! ## withOracle -/

@[simp] theorem State.withOracle_mem (s : State) (v : Oracle) : (s.withOracle v).mem = s.mem := rfl
@[simp] theorem State.withOracle_run (s : State) (v : Oracle) : (s.withOracle v).run = s.run := rfl
@[simp] theorem State.withOracle_mode (s : State) (v : Oracle) : (s.withOracle v).mode = s.mode := rfl
@[simp] theorem State.withOracle_cursor (s : State) (v : Oracle) : (s.withOracle v).cursor = s.cursor := rfl
@[simp] theorem State.withOracle_delay (s : State) (v : Oracle) : (s.withOracle v).delay = s.delay := rfl
@[simp] theorem State.withOracle_disp (s : State) (v : Oracle) : (s.withOracle v).disp = s.disp := rfl
@[simp] theorem State.withOracle_params (s : State) (v : Oracle) : (s.withOracle v).params = s.params := rfl
@[simp] theorem State.withOracle_keep (s : State) (v : Oracle) : (s.withOracle v).keep = s.keep := rfl
@[simp] theorem State.withOracle_oracle (s : State) (v : Oracle) : (s.withOracle v).oracle = v := rfl
@[simp] theorem State.withOracle_sent (s : State) (v : Oracle) : (s.withOracle v).sent = s.sent := rfl

/-! ## emit -/

@[simp] theorem State.emit_mem (s : State) (e : PortEvent) : (s.emit e).mem = s.mem := rfl
@[simp] theorem State.emit_run (s : State) (e : PortEvent) : (s.emit e).run = s.run := rfl
@[simp] theorem State.emit_mode (s : State) (e : PortEvent) : (s.emit e).mode = s.mode := rfl
@[simp] theorem State.emit_cursor (s : State) (e : PortEvent) : (s.emit e).cursor = s.cursor := rfl
@[simp] theorem State.emit_delay (s : State) (e : PortEvent) : (s.emit e).delay = s.delay := rfl
@[simp] theorem State.emit_disp (s : State) (e : PortEvent) : (s.emit e).disp = s.disp := rfl
@[simp] theorem State.emit_params (s : State) (e : PortEvent) : (s.emit e).params = s.params := rfl
@[simp] theorem State.emit_keep (s : State) (e : PortEvent) : (s.emit e).keep = s.keep := rfl
@[simp] theorem State.emit_oracle (s : State) (e : PortEvent) : (s.emit e).oracle = s.oracle := rfl
@[simp] theorem State.emit_sent (s : State) (e : PortEvent) : (s.emit e).sent = e :: s.sent := rfl

/-! ## advance -/

@[simp] theorem State.advance_run (s : State) (n : Byte) : (s.advance n).run = s.run := rfl
@[simp] theorem State.advance_mode (s : State) (n : Byte) : (s.advance n).mode = s.mode := rfl
@[simp] theorem State.advance_cursor (s : State) (n : Byte) : (s.advance n).cursor = s.cursor := rfl
@[simp] theorem State.advance_delay (s : State) (n : Byte) : (s.advance n).delay = s.delay := rfl
@[simp] theorem State.advance_disp (s : State) (n : Byte) : (s.advance n).disp = s.disp := rfl
@[simp] theorem State.advance_params (s : State) (n : Byte) : (s.advance n).params = s.params := rfl
@[simp] theorem State.advance_keep (s : State) (n : Byte) : (s.advance n).keep = s.keep := rfl
@[simp] theorem State.advance_oracle (s : State) (n : Byte) : (s.advance n).oracle = s.oracle := rfl
@[simp] theorem State.advance_sent (s : State) (n : Byte) : (s.advance n).sent = s.sent := rfl

/-! ## Reading a byte after an update -/

/-- A read after a write of one byte. -/
theorem State.memRead_memWrite (s : State) (a b : Addr) (v : Byte) :
    (s.memWrite a v).memRead b = if b = a then v else s.memRead b := by
  simp only [State.memRead, State.memWrite_mem, Memory.read_write, BitVec.toNat_inj]

@[simp] theorem State.memRead_memWrite_same (s : State) (a : Addr) (v : Byte) :
    (s.memWrite a v).memRead a = v := by simp [State.memRead_memWrite]

@[simp] theorem State.memRead_memWrite_of_ne (s : State) {a b : Addr} (v : Byte) (h : b ≠ a) :
    (s.memWrite a v).memRead b = s.memRead b := by simp [State.memRead_memWrite, h]

/-- A cleared memory reads 0 everywhere. -/
@[simp] theorem State.memRead_clearAllMemory (s : State) (a : Addr) :
    s.clearAllMemory.memRead a = 0#8 := rfl

@[simp] theorem State.memRead_withRun (s : State) (v : Bool) (a : Addr) :
    (s.withRun v).memRead a = s.memRead a := rfl
@[simp] theorem State.pc_withRun (s : State) (v : Bool) : (s.withRun v).pc = s.pc := rfl
@[simp] theorem State.memRead_withMode (s : State) (v : DisplayMode) (a : Addr) :
    (s.withMode v).memRead a = s.memRead a := rfl
@[simp] theorem State.pc_withMode (s : State) (v : DisplayMode) : (s.withMode v).pc = s.pc := rfl
@[simp] theorem State.memRead_withCursor (s : State) (v : Addr) (a : Addr) :
    (s.withCursor v).memRead a = s.memRead a := rfl
@[simp] theorem State.pc_withCursor (s : State) (v : Addr) : (s.withCursor v).pc = s.pc := rfl
@[simp] theorem State.memRead_withDelay (s : State) (v : Option (BitVec 4)) (a : Addr) :
    (s.withDelay v).memRead a = s.memRead a := rfl
@[simp] theorem State.pc_withDelay (s : State) (v : Option (BitVec 4)) : (s.withDelay v).pc = s.pc := rfl
@[simp] theorem State.memRead_withDisp (s : State) (v : Byte) (a : Addr) :
    (s.withDisp v).memRead a = s.memRead a := rfl
@[simp] theorem State.pc_withDisp (s : State) (v : Byte) : (s.withDisp v).pc = s.pc := rfl
@[simp] theorem State.memRead_withKeep (s : State) (v : Bool) (a : Addr) :
    (s.withKeep v).memRead a = s.memRead a := rfl
@[simp] theorem State.pc_withKeep (s : State) (v : Bool) : (s.withKeep v).pc = s.pc := rfl
@[simp] theorem State.memRead_withOracle (s : State) (v : Oracle) (a : Addr) :
    (s.withOracle v).memRead a = s.memRead a := rfl
@[simp] theorem State.pc_withOracle (s : State) (v : Oracle) : (s.withOracle v).pc = s.pc := rfl
@[simp] theorem State.memRead_emit (s : State) (e : PortEvent) (a : Addr) :
    (s.emit e).memRead a = s.memRead a := rfl
@[simp] theorem State.pc_emit (s : State) (e : PortEvent) : (s.emit e).pc = s.pc := rfl

end Sys2Proof.Machine
end

