-- ==== Sys2Proof/Laws/Ops.lean ====
section
/-! SUPPORT. What each shared operation can do, said once: the end of an instruction, the draws from the
oracle ports, the hook, and the instructions' bodies. -/

namespace Sys2Proof.Machine

/-! ## Outcomes -/

@[simp] theorem andThen_next (s : State) (f : State → Result) : andThen (.next s) f = f s := rfl
@[simp] theorem andThen_refused (r : Refusal) (f : State → Result) :
    andThen (.refused r) f = .refused r := rfl

/-- `andThen` answers a next state exactly when both parts do. -/
theorem andThen_eq_next {o : Result} {f : State → Result} {t : State} :
    andThen o f = .next t ↔ ∃ s, o = .next s ∧ f s = .next t := by
  cases o <;> simp [andThen]

/-! ## The end of an instruction -/

theorem State.memRead_advance (s : State) (n : Byte) (a : Addr) :
    (s.advance n).memRead a = if a = 3#8 then s.memRead 3#8 + n else s.memRead a := by
  simp [State.advance, State.memRead_memWrite]

theorem State.complete_of_current {s : State} (h : s.CurrentPc) (n : Byte) (keep : Bool) :
    s.complete n keep = .next ((s.advance n).withKeep keep) := by
  have h : s.params.legacyPc = false := h
  simp [State.complete, h]

theorem State.complete_of_legacy {s : State} (h : s.params.legacyPc = true) (n : Byte) (keep : Bool) :
    s.complete n keep = .refused .legacyPcTiming := by simp [State.complete, h]

theorem State.complete_eq_next {s t : State} {n : Byte} {keep : Bool} :
    s.complete n keep = .next t ↔
      s.params.legacyPc = false ∧ t = (s.advance n).withKeep keep := by
  unfold State.complete
  cases s.params.legacyPc <;> simp [eq_comm]

/-! ## Control and outside -/

theorem State.SameControl.refl (s : State) : s.SameControl s := by simp [State.SameControl]

theorem State.SameControl.trans {s t u : State} (h : s.SameControl t) (h' : t.SameControl u) :
    s.SameControl u := by
  simp only [State.SameControl] at *
  simp_all

theorem State.SameControl.params {s t : State} (h : s.SameControl t) : t.params = s.params :=
  h.2.2.2.2.2

@[simp] theorem State.sameControl_memWrite (s : State) (a : Addr) (v : Byte) :
    s.SameControl (s.memWrite a v) := by simp [State.SameControl]
@[simp] theorem State.sameControl_memWriteAll (s : State) (ws : Writes) :
    s.SameControl (s.memWriteAll ws) := by simp [State.SameControl]
@[simp] theorem State.sameControl_withOracle (s : State) (o : Oracle) :
    s.SameControl (s.withOracle o) := by simp [State.SameControl]
@[simp] theorem State.sameControl_emit (s : State) (e : PortEvent) :
    s.SameControl (s.emit e) := by simp [State.SameControl]
@[simp] theorem State.sameControl_end (s : State) (n : Byte) (keep : Bool) :
    s.SameControl ((s.advance n).withKeep keep) := by simp [State.SameControl]

/-- A store keeps memory canonical. -/
theorem State.wf_memWrite (s : State) (a : Addr) (v : Byte) (h : Memory.wf s.mem = true) :
    Memory.wf (s.memWrite a v).mem = true := Memory.wf_write _ _ _ a.isLt h

/-- Several stores keep memory canonical. -/
theorem State.wf_memWriteAll (s : State) (ws : Writes) (h : Memory.wf s.mem = true) :
    Memory.wf (s.memWriteAll ws).mem = true := Memory.wf_writeAll _ _ h

/-! ## Draws

A draw changes the waiting answers and what has been sent, and nothing else. -/

/-- The effect of a draw. -/
def OnlyAsks (s t : State) : Prop := s.SameControl t ∧ t.mem = s.mem ∧ t.keep = s.keep

theorem askCfgRead_onlyAsks (s : State) (idx : BitVec 7) : OnlyAsks s (s.askCfgRead idx).2 := by
  unfold State.askCfgRead; dsimp only; split <;> simp [OnlyAsks, State.SameControl]
theorem askCfgWrite_onlyAsks (s : State) (idx : BitVec 7) (v : Byte) :
    OnlyAsks s (s.askCfgWrite idx v).2 := by
  unfold State.askCfgWrite; dsimp only; split <;> simp [OnlyAsks, State.SameControl]
theorem askSleep_onlyAsks (s : State) (ms : Nat) : OnlyAsks s (s.askSleep ms).2 := by
  unfold State.askSleep; dsimp only; split <;> simp [OnlyAsks, State.SameControl]
theorem askSample_onlyAsks (s : State) (d : Bool) : OnlyAsks s (s.askSample d).2 := by
  unfold State.askSample; dsimp only; split <;> simp [OnlyAsks, State.SameControl]
theorem askSlotLoad_onlyAsks (s : State) (k : Fin 8) : OnlyAsks s (s.askSlotLoad k).2 := by
  unfold State.askSlotLoad; dsimp only; split <;> simp [OnlyAsks, State.SameControl]
theorem askSlotSave_onlyAsks (s : State) (k : Fin 8) : OnlyAsks s (s.askSlotSave k).2 := by
  unfold State.askSlotSave; dsimp only; split <;> simp [OnlyAsks, State.SameControl]
theorem askCanned_onlyAsks (s : State) (k : Fin 8) : OnlyAsks s (s.askCanned k).2 := by
  unfold State.askCanned; dsimp only; split <;> simp [OnlyAsks, State.SameControl]
theorem askDumpRange_onlyAsks (s : State) (k : Fin 8) : OnlyAsks s (s.askDumpRange k).2 := by
  unfold State.askDumpRange; dsimp only; split <;> simp [OnlyAsks, State.SameControl]
theorem askSerialLoad_onlyAsks (s : State) (k : Fin 8) : OnlyAsks s (s.askSerialLoad k).2 := by
  unfold State.askSerialLoad; dsimp only; split <;> simp [OnlyAsks, State.SameControl]
theorem askHook_onlyAsks (s : State) (op : Byte) : OnlyAsks s (s.askHook op).2 := by
  unfold State.askHook; dsimp only; split <;> simp [OnlyAsks, State.SameControl]

@[simp] theorem askCfgRead_sent (s : State) (idx : BitVec 7) :
    (s.askCfgRead idx).2.sent = .cfgRead idx :: s.sent := by
  unfold State.askCfgRead; dsimp only; split <;> simp
@[simp] theorem askCfgWrite_sent (s : State) (idx : BitVec 7) (v : Byte) :
    (s.askCfgWrite idx v).2.sent = .cfgWrite idx v :: s.sent := by
  unfold State.askCfgWrite; dsimp only; split <;> simp
@[simp] theorem askSample_sent (s : State) (d : Bool) :
    (s.askSample d).2.sent = .sample d :: s.sent := by
  unfold State.askSample; dsimp only; split <;> simp
@[simp] theorem askHook_sent (s : State) (op : Byte) :
    (s.askHook op).2.sent = .hookCall op :: s.sent := by
  unfold State.askHook; dsimp only; split <;> simp

theorem State.memRead_of_mem {s t : State} (h : t.mem = s.mem) (a : Addr) :
    t.memRead a = s.memRead a := congrArg (Memory.read · a.toNat) h

theorem OnlyAsks.memRead {s t : State} (h : OnlyAsks s t) (a : Addr) : t.memRead a = s.memRead a :=
  State.memRead_of_mem h.2.1 a

/-! ## The system call and the hook -/

/-- The system call changes at most B in `M` and nothing of the controller. -/
theorem systemCall_effect (s : State) :
    s.SameControl (systemCall s).1 ∧
    (∀ a : Addr, a ≠ addrB → (systemCall s).1.memRead a = s.memRead a) ∧
    (Memory.wf s.mem = true → Memory.wf (systemCall s).1.mem = true) := by
  unfold systemCall
  dsimp only
  split
  · obtain ⟨h1, h2, -⟩ := askCfgWrite_onlyAsks s ((s.memRead addrA).extractLsb' 0 7) (s.memRead addrB)
    exact ⟨h1, fun a _ => State.memRead_of_mem h2 a, fun h => by rw [h2]; exact h⟩
  · unfold sysRead
    dsimp only
    split
    · exact ⟨by simp, fun a ha => by simp [ha], State.wf_memWrite _ _ _⟩
    · obtain ⟨h1, h2, -⟩ := askCfgRead_onlyAsks s ((s.memRead addrA).extractLsb' 0 7)
      refine ⟨h1.trans (by simp), fun a ha => ?_, fun h => ?_⟩
      · rw [State.memRead_memWrite_of_ne _ _ ha]; exact State.memRead_of_mem h2 a
      · exact State.wf_memWrite _ _ _ (h2 ▸ h)

/-- What a hook call can do: end the instruction after a body that keeps the controller's state and the
canonical form of memory, or, with a hook of which nothing is known, be refused. -/
theorem callHook_cases (op n : Byte) (s : State) :
    (∃ u keep, callHook op n s = u.complete n keep ∧ s.SameControl u ∧
      (s.KnownHook → ∀ a : Addr, a ≠ addrB → u.memRead a = s.memRead a) ∧
      (Memory.wf s.mem = true → Memory.wf u.mem = true)) ∨
    (s.params.hook = .custom ∧ ∃ r, callHook op n s = .refused r) := by
  unfold callHook
  split
  · exact .inl ⟨s, true, rfl, .refl s, fun _ _ _ => rfl, id⟩
  · split
    · exact .inl ⟨_, _, rfl, (systemCall_effect s).1, fun _ => (systemCall_effect s).2.1,
        (systemCall_effect s).2.2⟩
    · exact .inl ⟨s, true, rfl, .refl s, fun _ _ _ => rfl, id⟩
  · rename_i hc
    split
    · obtain ⟨h1, h2, -⟩ := askHook_onlyAsks s op
      refine .inl ⟨_, _, rfl, h1.trans (by simp), fun hk => absurd hc hk, fun h => ?_⟩
      exact State.wf_memWriteAll _ _ (h2 ▸ h)
    · exact .inr ⟨hc, _, rfl⟩
    · exact .inr ⟨hc, _, rfl⟩

/-! ## Every instruction -/

/-- What executing any instruction can do: run a body and end as `State.complete` says, or, for an
extension opcode under a hook of which nothing is known, be refused. The body leaves the controller's
state alone, keeps memory canonical, and under a known hook changes no byte but the program counter,
the destination registers and the byte stored to. -/
theorem exec_cases (i : Instr) (s : State) :
    (∃ u n keep, exec i s = u.complete n keep ∧ s.SameControl u ∧
      (s.KnownHook → ∀ a : Addr, a ≠ addrPC → a ∉ destinations i → storeAddress s i ≠ some a →
        u.memRead a = s.memRead a) ∧
      (Memory.wf s.mem = true → Memory.wf u.mem = true)) ∨
    (s.params.hook = .custom ∧ ∃ r, exec i s = .refused r) := by
  have one : ∀ (a : Addr) (v : Byte), s.SameControl (s.memWrite a v) ∧
      (Memory.wf s.mem = true → Memory.wf (s.memWrite a v).mem = true) := fun a v =>
    ⟨State.sameControl_memWrite s a v, State.wf_memWrite s a v⟩
  cases i with
  | halt | nop | skp0 | skp1 => exact .inl ⟨s, _, _, rfl, .refl s, fun _ _ _ _ _ => rfl, id⟩
  | ext1 op =>
    rcases callHook_cases op 1#8 s with ⟨u, keep, h, h1, h2, h3⟩ | h
    · exact .inl ⟨u, _, keep, h, h1, fun hk a _ hd _ => h2 hk a (by simpa [destinations] using hd), h3⟩
    · exact .inr h
  | ext2 mode opnd =>
    rcases callHook_cases (Instr.ext2 mode opnd).opcode 2#8 s with ⟨u, keep, h, h1, h2, h3⟩ | h
    · exact .inl ⟨u, _, keep, h, h1, fun hk a _ hd _ => h2 hk a (by simpa [destinations] using hd), h3⟩
    · exact .inr h
  | sftr r _ | rotr r _ | sftl r _ | rotl r _ =>
    refine .inl ⟨_, _, _, rfl, (one _ _).1, fun _ a _ hd _ => ?_, (one _ _).2⟩
    exact State.memRead_memWrite_of_ne _ _ (by simpa [destinations] using hd)
  | set0 bit opnd | set1 bit opnd =>
    refine .inl ⟨_, _, _, rfl, (one _ _).1, fun _ a _ _ hs => ?_, (one _ _).2⟩
    exact State.memRead_memWrite_of_ne _ _ (by simpa [storeAddress, eq_comm] using hs)
  | jpd test opnd | jpi test opnd =>
    simp only [exec, execJpd, execJpi, jumpTo]
    split
    · exact .inl ⟨_, _, _, rfl, (one _ _).1, fun _ a hp _ _ =>
        State.memRead_memWrite_of_ne _ _ hp, (one _ _).2⟩
    · exact .inl ⟨s, _, _, rfl, .refl s, fun _ _ _ _ _ => rfl, id⟩
  | jmd test opnd | jmi test opnd =>
    simp only [exec, execJmd, execJmi, markAndJumpTo, storeAddress]
    split
    · refine .inl ⟨_, _, _, rfl, (one _ _).1.trans (State.sameControl_memWrite _ _ _), fun _ a hp _ hs => ?_,
        fun h => State.wf_memWrite _ _ _ ((one _ _).2 h)⟩
      rw [State.memRead_memWrite_of_ne _ _ hp]
      exact State.memRead_memWrite_of_ne _ _ (by simpa [eq_comm] using hs)
    · exact .inl ⟨s, _, _, rfl, .refl s, fun _ _ _ _ _ => rfl, id⟩
  | or | and | lneg =>
    refine .inl ⟨_, _, _, rfl, (one _ _).1, fun _ a _ hd _ => ?_, (one _ _).2⟩
    exact State.memRead_memWrite_of_ne _ _ (by simpa [destinations] using hd)
  | add r | sub r =>
    refine .inl ⟨_, _, _, rfl, (one _ _).1.trans (State.sameControl_memWrite _ _ _), fun _ a _ hd _ => ?_,
      fun h => State.wf_memWrite _ _ _ ((one _ _).2 h)⟩
    simp only [destinations, List.mem_cons, List.not_mem_nil, or_false, not_or] at hd
    rw [State.memRead_memWrite_of_ne _ _ hd.2, State.memRead_memWrite_of_ne _ _ hd.1]
  | load r =>
    refine .inl ⟨_, _, _, rfl, (one _ _).1, fun _ a _ hd _ => ?_, (one _ _).2⟩
    exact State.memRead_memWrite_of_ne _ _ (by simpa [destinations] using hd)
  | store r mode opnd =>
    refine .inl ⟨_, _, _, rfl, (one _ _).1, fun _ a _ _ hs => ?_, (one _ _).2⟩
    exact State.memRead_memWrite_of_ne _ _ (by simpa [storeAddress, eq_comm] using hs)

end Sys2Proof.Machine
end

