-- ==== Sys2Proof/Laws/Panel.lean ====
section
/-! SUPPORT. What the serial characters and the presses of a running cycle can do. -/

namespace Sys2Proof.Machine

/-! ## Delimiters and newlines -/

/-- In base 8 a delimiter keeps the base, whatever the open points. -/
@[simp] theorem hexAfterDelimiter_base8 (rules : SerialRules) (pending : Option Nat) :
    hexAfterDelimiter rules false pending = false := rfl

/-- With no value pending, the end of a load adds no byte. -/
@[simp] theorem endValue_none (rules : SerialRules) (stop : Option Byte) :
    endValue rules stop none = [] := by
  simp [endValue, flushValue]

/-- A delimiter that ends a value resets the base exactly where an `x` holds for one value. -/
@[simp] theorem hexAfterDelimiter_some (rules : SerialRules) (hex : Bool) (n : Nat) :
    hexAfterDelimiter rules hex (some n) = (hex && rules.baseSticks) := by
  simp [hexAfterDelimiter]

/-- A delimiter is what the loader takes for one in base 8. -/
theorem isDelimiter_iff (rules : SerialRules) (c : Byte) :
    isDelimiter c = true ↔
      digitValue rules false c = none ∧ isStopChar c = false ∧ isHexChar c = false := by
  by_cases h : 48 ≤ c.toNat ∧ c.toNat ≤ 55 <;> simp [isDelimiter, isOctalDigit, digitValue, h]

/-- A newline is made of delimiters. -/
theorem newlineOf_isDelimiter (chars : List Byte) : ∀ c ∈ newlineOf chars, isDelimiter c = true := by
  have hf : ∀ c ∈ chars.filter isDelimiter, isDelimiter c = true := fun c hc => (List.mem_filter.mp hc).2
  unfold newlineOf
  split
  · decide
  · rename_i h; exact h ▸ hf

theorem newlineOf_ne_nil (chars : List Byte) : newlineOf chars ≠ [] := by
  unfold newlineOf; split <;> simp

/-- Every list of one or more delimiters is a newline. -/
theorem newlineOf_eq_self (chars : List Byte) (hne : chars ≠ []) (h : ∀ c ∈ chars, isDelimiter c = true) :
    newlineOf chars = chars := by
  unfold newlineOf
  rw [List.filter_eq_self.mpr h]
  cases chars with
  | nil => exact absurd rfl hne
  | cons => rfl

/-! ## Presses while running -/

/-- What presses while running never change. -/
def SamePressed (s t : State) : Prop := t.params = s.params ∧ t.keep = s.keep ∧ t.cursor = s.cursor

theorem SamePressed.trans {s t u : State} (h : SamePressed s t) (h' : SamePressed t u) :
    SamePressed s u := ⟨h'.1.trans h.1, h'.2.1.trans h.2.1, h'.2.2.trans h.2.2⟩

theorem OnlyAsks.samePressed {s t : State} (h : OnlyAsks s t) : SamePressed s t :=
  ⟨h.1.params, h.2.2, h.1.2.2.1⟩

/-- A digit changes `M`, the display and what was asked, and nothing else. -/
theorem digitPress_effect (k : Fin 8) (partner : Option Button) (s : State) :
    SamePressed s (digitPress k partner s) ∧ (digitPress k partner s).run = s.run ∧
    (digitPress k partner s).delay = s.delay := by
  unfold digitPress
  split
  · have h := askCanned_onlyAsks s k
    simp [cannedCommand, SamePressed, h.samePressed.1, h.samePressed.2.1, h.samePressed.2.2, h.1.1,
      h.1.2.2.2.1]
  · simp [digitCommand, SamePressed]

/-- So does `CLR`. -/
theorem clearPress_effect (partner : Option Button) (s : State) :
    SamePressed s (clearPress partner s) ∧ (clearPress partner s).run = s.run ∧
    (clearPress partner s).delay = s.delay := by
  unfold clearPress; split <;> simp [blankCommand, clearCommand, SamePressed]

/-- `STOP` changes `run`, the mode and the delay, and nothing else. -/
theorem stopCommand_effect (partner : Option Button) (s : State) :
    SamePressed s (stopCommand partner s) ∧ (stopCommand partner s).run = false ∧
    (stopCommand partner s).mode = .run ∧ (stopCommand partner s).mem = s.mem ∧
    (stopCommand partner s).disp = s.disp := by
  unfold stopCommand; split <;> simp [SamePressed]

/-- What one press while running can do: `STOP` ends the run, and any other button leaves `run` and the
delay. -/
theorem dispatchRunning_effect (b : Button) (partner : Option Button) (s : State) :
    SamePressed s (dispatchRunning b partner s) ∧
    (b ≠ .stop → (dispatchRunning b partner s).run = s.run ∧
      (dispatchRunning b partner s).delay = s.delay) ∧
    (b = .stop → (dispatchRunning b partner s).run = false) := by
  cases b with
  | digit k => exact ⟨(digitPress_effect k partner s).1, fun _ => (digitPress_effect k partner s).2, nofun⟩
  | clr => exact ⟨(clearPress_effect partner s).1, fun _ => (clearPress_effect partner s).2, nofun⟩
  | stop => exact ⟨(stopCommand_effect partner s).1, fun h => absurd rfl h,
      fun _ => (stopCommand_effect partner s).2.1⟩
  | disp | set | read | store | start => exact ⟨⟨rfl, rfl, rfl⟩, fun _ => ⟨rfl, rfl⟩, nofun⟩

/-- What the presses of a running cycle can do: a run that is over stays over. -/
theorem pressesRunning_effect (held : BitVec 16) (presses : List Button) (s : State) :
    SamePressed s (pressesRunning held presses s) ∧
    (.stop ∉ presses → (pressesRunning held presses s).run = s.run ∧
      (pressesRunning held presses s).delay = s.delay) ∧
    (.stop ∈ presses ∨ s.run = false → (pressesRunning held presses s).run = false) := by
  induction presses generalizing s with
  | nil => exact ⟨⟨rfl, rfl, rfl⟩, fun _ => ⟨rfl, rfl⟩, by simp [pressesRunning]⟩
  | cons b rest ih =>
    obtain ⟨h1, h2, h3⟩ := dispatchRunning_effect b (chordPartner s.params held b) s
    obtain ⟨k1, k2, k3⟩ := ih (dispatchRunning b (chordPartner s.params held b) s)
    refine ⟨h1.trans k1, fun h => ?_, fun h => k3 ?_⟩
    · simp only [List.mem_cons, not_or] at h
      have hb := h2 (Ne.symm h.1)
      exact ⟨(k2 h.2).1.trans hb.1, (k2 h.2).2.trans hb.2⟩
    · by_cases hb : b = .stop
      · exact .inr (h3 hb)
      · rw [(h2 hb).1]
        simpa [Ne.symm hb] using h

/-- The presses of a running cycle whose sample arrived. -/
theorem State.sampleRunning_of_some {s : State} {sm : Sample} (h : (s.askSample false).1 = some sm) :
    s.sampleRunning =
      pressesRunning sm.state (newPresses s.params sm) (s.askSample false).2 := by
  unfold State.sampleRunning; rw [h]

end Sys2Proof.Machine
end

