-- ==== Sys2Proof/Laws/PerInstr.lean ====
section
/-! SUPPORT. What is said of every instruction as syntax, one lemma for each constructor. -/

namespace Sys2Proof.Laws.EncodedLength

/-- The encoding has as many bytes as its opcode byte tells (spec 30_encoding.md R72). -/
def Statement (i : Instr) : Prop := i.wf = true → (encode i).length = opcodeLength i.opcode

theorem shift_length (p : BitVec 2) (r : ShiftReg) (count : Nat) :
    opcodeLength (shiftOpcode p r count) = 1 := by
  unfold shiftOpcode
  generalize r.field = f
  generalize countField count = c
  revert p f c
  decide

theorem long_length (p : BitVec 2) (q r : BitVec 3) (h : 2#3 ≤ r) :
    opcodeLength (opcodeOf p q r) = 2 := by
  revert p q r
  decide

theorem mode_long (mode : AddrMode) : 2#3 ≤ mode.field := by cases mode <;> decide

theorem cond_long (cc : Cond) : 2#3 ≤ cc.field := by cases cc <;> decide

theorem test_long (test : JumpTest) : 2#3 ≤ test.fieldR := by
  cases test with
  | reg _ cc => exact cond_long cc
  | always k => exact cond_long k

theorem halt (ign : BitVec 4) : Statement (.halt ign) := fun _ => by revert ign; decide
theorem nop (ign : BitVec 1) : Statement (.nop ign) := fun _ => by revert ign; decide
theorem ext1 (op : Byte) : Statement (.ext1 op) := by
  revert op; unfold Statement; decide
theorem sftr (r : ShiftReg) (count : Nat) : Statement (.sftr r count) := fun _ =>
  (shift_length _ _ _).symm
theorem rotr (r : ShiftReg) (count : Nat) : Statement (.rotr r count) := fun _ =>
  (shift_length _ _ _).symm
theorem sftl (r : ShiftReg) (count : Nat) : Statement (.sftl r count) := fun _ =>
  (shift_length _ _ _).symm
theorem rotl (r : ShiftReg) (count : Nat) : Statement (.rotl r count) := fun _ =>
  (shift_length _ _ _).symm
theorem set0 (bit : BitVec 3) (opnd : Byte) : Statement (.set0 bit opnd) := fun _ =>
  (long_length _ _ _ (by decide)).symm
theorem set1 (bit : BitVec 3) (opnd : Byte) : Statement (.set1 bit opnd) := fun _ =>
  (long_length _ _ _ (by decide)).symm
theorem skp0 (bit : BitVec 3) (opnd : Byte) : Statement (.skp0 bit opnd) := fun _ =>
  (long_length _ _ _ (by decide)).symm
theorem skp1 (bit : BitVec 3) (opnd : Byte) : Statement (.skp1 bit opnd) := fun _ =>
  (long_length _ _ _ (by decide)).symm
theorem jpd (test : JumpTest) (opnd : Byte) : Statement (.jpd test opnd) := fun _ =>
  (long_length _ _ _ (test_long test)).symm
theorem jpi (test : JumpTest) (opnd : Byte) : Statement (.jpi test opnd) := fun _ =>
  (long_length _ _ _ (test_long test)).symm
theorem jmd (test : JumpTest) (opnd : Byte) : Statement (.jmd test opnd) := fun _ =>
  (long_length _ _ _ (test_long test)).symm
theorem jmi (test : JumpTest) (opnd : Byte) : Statement (.jmi test opnd) := fun _ =>
  (long_length _ _ _ (test_long test)).symm
theorem or (mode : AddrMode) (opnd : Byte) : Statement (.or mode opnd) := fun _ =>
  (long_length _ _ _ (mode_long mode)).symm
theorem ext2 (mode : AddrMode) (opnd : Byte) : Statement (.ext2 mode opnd) := fun _ =>
  (long_length _ _ _ (mode_long mode)).symm
theorem and (mode : AddrMode) (opnd : Byte) : Statement (.and mode opnd) := fun _ =>
  (long_length _ _ _ (mode_long mode)).symm
theorem lneg (mode : AddrMode) (opnd : Byte) : Statement (.lneg mode opnd) := fun _ =>
  (long_length _ _ _ (mode_long mode)).symm
theorem add (r : Reg) (mode : AddrMode) (opnd : Byte) : Statement (.add r mode opnd) := fun _ =>
  (long_length _ _ _ (mode_long mode)).symm
theorem sub (r : Reg) (mode : AddrMode) (opnd : Byte) : Statement (.sub r mode opnd) := fun _ =>
  (long_length _ _ _ (mode_long mode)).symm
theorem load (r : Reg) (mode : AddrMode) (opnd : Byte) : Statement (.load r mode opnd) := fun _ =>
  (long_length _ _ _ (mode_long mode)).symm
theorem store (r : Reg) (mode : AddrMode) (opnd : Byte) : Statement (.store r mode opnd) := fun _ =>
  (long_length _ _ _ (mode_long mode)).symm

end Sys2Proof.Laws.EncodedLength
end

