-- ==== Sys2Proof/Tests/Slice0.lean ====
section
/-! SUPPORT. The model's own tests. The words of the decode tests are written out from the encodings of
spec 30_encoding.md; the expected results of the step and cycle tests are the vectors of spec
95_test_vectors.md, whose id each test carries. A `witness_…` theorem shows a concrete state and operands
that meet the hypotheses of the obligation it names. -/

namespace Sys2Proof.Tests
open Sys2Proof Sys2Proof.Machine

/-! ## Helpers -/

/-- The reset state with other parameters. -/
def machine (p : Params) : State := State.init Init.default p

/-- Parameters with the hook of a stand-alone emulator, the default hook of the vectors. -/
def bare : Params := { Params.default with hook := .standalone }

/-- A machine with bytes of an instruction at `pc`, the program counter there, and other bytes set. -/
def prepared (p : Params) (pc : Addr) (bytes : List Byte) (ms : Writes) : State :=
  (machine p).memWriteAll (ms ++ writesFromTest pc bytes ++ [(3#8, pc)])
where
  /-- The stores that put bytes at consecutive addresses. -/
  writesFromTest (a : Addr) : List Byte → Writes
    | [] => []
    | v :: rest => (a, v) :: writesFromTest (a + 1#8) rest

/-- The keep-running result and the memory after one step. -/
def stepped (s : State) : Option (Bool × Memory) :=
  match step s with
  | .next t => some (t.keep, t.mem)
  | .fault _ => none
  | .refused _ => none

/-- One step from a state gives `keep` and changes exactly the bytes listed. -/
abbrev Gives (s : State) (changes : Writes) (keep : Bool) : Prop :=
  stepped s = some (keep, (s.memWriteAll changes).mem)

/-- A vector: bytes at an address, a start state, the changes, the result; with the default hook. -/
abbrev Vector (pc : Addr) (bytes : List Byte) (ms changes : Writes) (keep : Bool) : Prop :=
  Gives (prepared bare pc bytes ms) changes keep

/-- A state with answers waiting. -/
def answering (s : State) (o : Oracle) : State := s.withOracle o

/-- A state with one sample waiting. -/
def pressing (s : State) (state newly : BitVec 16) : State :=
  s.withOracle { s.oracle with samples := [some ⟨state, newly⟩] }

/-- What the rows of the controller scenarios show: `M`, the panel, and what was sent last. -/
structure Shown where
  mem : Memory
  run : Bool
  mode : DisplayMode
  cursor : Addr
  delay : Option (BitVec 4)
  disp : Byte
  last : Option PortEvent
deriving DecidableEq, Repr

/-- What one cycle leaves. -/
def cycled (s : State) : Option Shown :=
  match cycle s with
  | .next t => some ⟨t.mem, t.run, t.mode, t.cursor, t.delay, t.disp, t.sent.head?⟩
  | .fault _ => none
  | .refused _ => none

/-- A row of a scenario: the changes of `M`, then run, mode, cursor, delay, disp and the control byte. -/
abbrev Row (s : State) (changes : Writes) (run : Bool) (mode : DisplayMode) (cursor : Addr)
    (delay : Option (BitVec 4)) (disp control : Byte) : Prop :=
  cycled s = some ⟨(s.memWriteAll changes).mem, run, mode, cursor, delay, disp,
    some (.render disp control)⟩

/-- Why a machine stops. -/
def stopOf (o : Result) : Option Refusal :=
  match o with
  | .next _ => none
  | .fault _ => none
  | .refused r => some r

/-! ## Ill-formed terms are refused -/

theorem test_wf_ext1_shift_opcode : (Instr.ext1 0xF1#8).wf = false := by decide
theorem test_wf_ext1_halt_opcode : (Instr.ext1 0x78#8).wf = false := by decide
theorem test_wf_ext1_nop_opcode : (Instr.ext1 0xC0#8).wf = false := by decide
theorem test_wf_sftr_count_0 : (Instr.sftr .a 0).wf = false := by decide
theorem test_wf_rotr_count_5 : (Instr.rotr .b 5).wf = false := by decide
theorem test_wf_sftl_count_5 : (Instr.sftl .a 5).wf = false := by decide
theorem test_wf_rotl_count_0 : (Instr.rotl .b 0).wf = false := by decide
theorem test_wf_default_params : Params.default.wf = true := by decide
theorem test_wf_syscall_opcode :
    Params.wf { Params.default with syscallOpcode := 0x80#8 } = false := by decide
theorem test_wf_syscall_ext2 :
    Params.wf { Params.default with syscallOpcode := 0xCB#8 } = true := by decide
theorem test_wf_btn_bit_short :
    Params.wf { Params.default with btnBit := [0, 1, 2] } = false := by decide
theorem test_wf_btn_bit_range :
    Params.wf { Params.default with btnBit := [0, 1, 2, 3, 4, 5, 6, 7, 8, 9, 10, 11, 12, 13, 16] } =
      false := by decide
theorem test_wf_btn_bit_twice :
    Params.wf { Params.default with btnBit := [0, 1, 2, 3, 4, 5, 6, 7, 8, 9, 10, 11, 12, 13, 13] } =
      false := by decide
theorem test_wf_chord_scan_missing :
    Params.wf { Params.default with chordScan := [.stop] } = false := by decide
theorem test_wf_chord_scan_twice :
    Params.wf { Params.default with chordScan := .stop :: Button.all } = false := by decide
theorem test_wf_memory_order : Memory.wf [(5, 1#8), (4, 1#8)] = false := by decide
theorem test_wf_memory_zero_cell : Memory.wf [(5, 0#8)] = false := by decide
theorem test_wf_memory_range : Memory.wf [(256, 1#8)] = false := by decide

/-! ## Decoding: words written out from the opcode map of R80 -/

theorem test_decode_one_byte :
    decodeBytes 0b01011000#8 0xFF#8 = .halt 0b1011#4 ∧
    decodeBytes 0b11000000#8 0xFF#8 = .nop 1#1 ∧
    decodeBytes 0b10001000#8 0xFF#8 = .ext1 0x88#8 ∧
    decodeBytes 0b11111000#8 0xFF#8 = .ext1 0xF8#8 := by decide
theorem test_decode_shift :
    decodeBytes 0b00010001#8 0#8 = .sftr .a 2 ∧ decodeBytes 0b01110001#8 0#8 = .rotr .b 2 ∧
    decodeBytes 0b10111001#8 0#8 = .sftl .b 3 ∧ decodeBytes 0b11000001#8 0#8 = .rotl .a 4 := by
  decide
theorem test_decode_bit :
    decodeBytes 0b00011010#8 0x40#8 = .set0 3#3 0x40#8 ∧
    decodeBytes 0b01111010#8 0x80#8 = .set1 7#3 0x80#8 ∧
    decodeBytes 0b10000010#8 0x41#8 = .skp0 0#3 0x41#8 ∧
    decodeBytes 0b11001010#8 0x81#8 = .skp1 1#3 0x81#8 := by decide
theorem test_decode_jump :
    decodeBytes 0b00100100#8 0x30#8 = .jpd (.reg .a .eq) 0x30#8 ∧
    decodeBytes 0b10101011#8 0x31#8 = .jpi (.reg .x .ne) 0x31#8 ∧
    decodeBytes 0b01110110#8 0x32#8 = .jmd (.reg .b .ge) 0x32#8 ∧
    decodeBytes 0b10111101#8 0x33#8 = .jmi (.reg .x .lt) 0x33#8 ∧
    decodeBytes 0b11100111#8 0x34#8 = .jpd (.always .gt) 0x34#8 := by decide
theorem test_decode_logic :
    decodeBytes 0b11000011#8 0x30#8 = .or .imm 0x30#8 ∧
    decodeBytes 0b11001111#8 0x31#8 = .ext2 .indIdx 0x31#8 ∧
    decodeBytes 0b11010100#8 0x32#8 = .and .mem 0x32#8 ∧
    decodeBytes 0b11011110#8 0x33#8 = .lneg .idx 0x33#8 := by decide
theorem test_decode_arith :
    decodeBytes 0b10000101#8 0x30#8 = .add .x .ind 0x30#8 ∧
    decodeBytes 0b01001011#8 0x31#8 = .sub .b .imm 0x31#8 ∧
    decodeBytes 0b00010110#8 0x32#8 = .load .a .idx 0x32#8 ∧
    decodeBytes 0b10011111#8 0x33#8 = .store .x .indIdx 0x33#8 := by decide
theorem test_decode_refuses_no_bytes : decode [] = .error .noOpcode := rfl
theorem test_decode_refuses_a_missing_operand :
    decode [0b11000011#8] = .error (.noOperand 0b11000011#8) := rfl
theorem test_decode_leaves_the_rest :
    decode [0b10000000#8, 0x11#8] = .ok (.nop 0#1, [0x11#8]) := rfl
theorem test_encode_ext2 : encode (.ext2 .ind 0x21#8) = [0b11001101#8, 0x21#8] := by decide
theorem test_encode_rotr : encode (.rotr .b 4) = [0b01100001#8] := by decide
theorem test_table_word_two_bytes : decodeTableWord 16 0x4005 = some (.add .a .ind 0x40#8) := by
  decide
theorem test_table_word_without_operand : decodeTableWord 8 0x4005 = some (.add .a .ind 0#8) := by
  decide

/-! ## The fetch place of the host's probe -/

theorem test_fetch_word_at_reset :
    (State.reset.withFetchWord 16 0x2A13).fetch = .load .a .imm 0x2A#8 := by decide
theorem test_fetch_word_on_the_program_counter :
    ((State.reset.memWrite 3#8 2#8).withFetchWord 16 0x2A13).fetch = .load .a .imm 0x2A#8 := by decide
theorem test_fetch_word_at_the_top :
    ((State.reset.memWrite 3#8 0xFF#8).withFetchWord 16 0x4023).fetch =
      .jpd (.reg .a .ne) 0x40#8 := by decide

/-! ## One step: halt, no-op, extension -/

theorem test_V40_02_halt : Vector 0x10#8 [0x78#8] [(0#8, 0x55#8)] [(3#8, 0x11#8)] false := by decide
theorem test_V40_03_halt_wraps : Vector 0xFF#8 [0x40#8] [] [(3#8, 0#8)] false := by decide
theorem test_V40_05_nop : Vector 0x10#8 [0xC0#8] [] [(3#8, 0x11#8)] true := by decide
theorem test_V40_07_ext1_default_hook :
    Vector 0x08#8 [0xF0#8] [(0#8, 0x7F#8), (1#8, 0x99#8)] [(3#8, 0x09#8)] true := by decide
theorem test_V60_01_probe :
    Gives (prepared Params.default 0x08#8 [0xF0#8] [(0#8, 0x7F#8), (1#8, 0xFF#8)])
      [(1#8, 0#8), (3#8, 0x09#8)] true := by decide
theorem test_V44_14_ext2 : Vector 0x10#8 [0xCB#8, 0x77#8] [(0#8, 0x11#8)] [(3#8, 0x12#8)] true := by
  decide
theorem test_V60_07_ext2 :
    Gives (prepared Params.default 0x08#8 [0xCB#8, 0#8] [(0#8, 0x05#8), (1#8, 0x11#8)])
      [(3#8, 0x0A#8)] true := by decide

/-- A machine under a hook of which nothing is known, with the hook's answer waiting. -/
def hooked (pc : Addr) (bytes : List Byte) (h : HookAnswer) : State :=
  answering (prepared { Params.default with hook := .custom } pc bytes [])
    { Oracle.empty with hookAnswers := [h] }

/-- A machine under the controller's hook before a system call, with A and B and an answer waiting. -/
def calling (a b : Byte) (o : Oracle) : State :=
  answering (prepared Params.default 0x08#8 [0xF0#8] [(0#8, a), (1#8, b)]) o

theorem test_V40_08_hook_returns_false :
    Gives (hooked 0x30#8 [0xB8#8] (.ran [] false)) [(3#8, 0x31#8)] false := by decide
theorem test_V40_09_hook_writes_the_program_counter :
    Gives (hooked 0x30#8 [0x90#8] (.ran [(3#8, 0x50#8)] true)) [(3#8, 0x51#8)] true := by decide
theorem test_V44_15_ext2_hook_returns_false :
    Gives (hooked 0x10#8 [0xCF#8, 0x40#8] (.ran [] false)) [(3#8, 0x12#8)] false := by decide
theorem test_V60_02_system_call_read :
    Gives (calling 0x05#8 0#8 { Oracle.empty with cfgReads := [0x42#8] })
      [(1#8, 0x42#8), (3#8, 0x09#8)] true := by decide
theorem test_V60_04_system_call_write_refused :
    Gives (calling 0x85#8 0x2A#8 { Oracle.empty with cfgWrites := [false] })
      [(3#8, 0x09#8)] false := by decide

/-! ## One step: shift and rotate -/

theorem test_V41_07_sftr : Vector 0x10#8 [0x11#8] [(0#8, 0x85#8)]
    [(3#8, 0x11#8), (0#8, 0xE1#8)] true := by decide
theorem test_V41_09_sftr_b : Vector 0x10#8 [0x29#8] [(1#8, 0x7F#8)]
    [(3#8, 0x11#8), (1#8, 0x3F#8)] true := by decide
theorem test_V41_13_rotr_b : Vector 0x10#8 [0x71#8] [(1#8, 0x87#8)]
    [(3#8, 0x11#8), (1#8, 0xE1#8)] true := by decide
theorem test_V41_14_rotr_4 : Vector 0x10#8 [0x41#8] [(0#8, 0x1E#8)]
    [(3#8, 0x11#8), (0#8, 0xE1#8)] true := by decide
theorem test_V41_03_sftl_b : Vector 0x10#8 [0xB9#8] [(0#8, 0x11#8), (1#8, 0xFF#8)]
    [(3#8, 0x11#8), (1#8, 0xF8#8)] true := by decide
theorem test_V41_15_sftl_keeps_flags : Vector 0x10#8 [0x89#8] [(0#8, 0x80#8), (129#8, 0x03#8)]
    [(3#8, 0x11#8), (0#8, 0#8)] true := by decide
theorem test_V41_06_rotl : Vector 0x10#8 [0xD9#8] [(0#8, 0xB4#8)]
    [(3#8, 0x11#8), (0#8, 0xA5#8)] true := by decide
theorem test_V41_16_rotl_wraps : Vector 0xFF#8 [0xC9#8] [(0#8, 0x01#8)]
    [(3#8, 0#8), (0#8, 0x02#8)] true := by decide

/-! ## One step: bit operations -/

theorem test_V42_01_set0 : Vector 0x10#8 [0x1A#8, 0x40#8] [(0x40#8, 0xFF#8)]
    [(3#8, 0x12#8), (0x40#8, 0xF7#8)] true := by decide
theorem test_V42_06_set0_pc : Vector 0x14#8 [0x12#8, 0x03#8] [] [(3#8, 0x12#8)] true := by decide
theorem test_V42_02_set1 : Vector 0x10#8 [0x7A#8, 0x80#8] []
    [(3#8, 0x12#8), (128#8, 0x80#8)] true := by decide
theorem test_V42_05_set1_pc : Vector 0x04#8 [0x62#8, 0x03#8] [] [(3#8, 0x16#8)] true := by decide
theorem test_V42_08_skp0_not_taken : Vector 0x10#8 [0x9A#8, 0x40#8] [(0x40#8, 0xFF#8)]
    [(3#8, 0x12#8)] true := by decide
theorem test_V42_15_skp0_wraps : Vector 0xFE#8 [0x82#8, 0x40#8] [] [(3#8, 0x02#8)] true := by decide
theorem test_V42_09_skp1_taken : Vector 0x20#8 [0xCA#8, 0x81#8] [(129#8, 0x02#8)]
    [(3#8, 0x24#8)] true := by decide
theorem test_V42_09b_skp1_not_taken : Vector 0x20#8 [0xCA#8, 0x81#8] [(129#8, 0x01#8)]
    [(3#8, 0x22#8)] true := by decide

/-! ## One step: jumps -/

theorem test_V43_04_jpd_gt_zero : Vector 0x10#8 [0xA7#8, 0x30#8] [] [(3#8, 0x12#8)] true := by decide
theorem test_V43_14_jpd_at_the_top : Vector 0xFF#8 [0x23#8] [(0#8, 0x30#8)]
    [(3#8, 0x30#8)] true := by decide
theorem test_V43_11_jpi : Vector 0x50#8 [0x2B#8, 0x40#8] [(0#8, 0x01#8), (0x40#8, 0x12#8)]
    [(3#8, 0x12#8)] true := by decide
theorem test_V43_13_jpi_3 : Vector 0x50#8 [0xEC#8, 0x03#8] [] [(3#8, 0x50#8)] true := by decide
theorem test_V43_23_jmd_3 : Vector 0x10#8 [0xF4#8, 0x03#8] [] [(3#8, 0x04#8)] true := by decide
theorem test_V43_25_jmd_self : Vector 0x10#8 [0xF4#8, 0x10#8] []
    [(3#8, 0x11#8), (0x10#8, 0x12#8)] true := by decide
theorem test_V43_22_jmi : Vector 0x20#8 [0xFC#8, 0x60#8] [(0x60#8, 0x40#8)]
    [(3#8, 0x41#8), (0x40#8, 0x22#8)] true := by decide
/-- The case of V43-21 in the indirect form: not taken, no mark is stored. -/
theorem test_jmi_not_taken : Vector 0x10#8 [0x7B#8, 0x40#8] [(0x40#8, 0x99#8)]
    [(3#8, 0x12#8)] true := by decide

/-! ## One step: logic -/

theorem test_V44_04_or_indexed : Vector 0x10#8 [0xC6#8, 0x40#8]
    [(0#8, 0x01#8), (2#8, 0x03#8), (0x43#8, 0x06#8)] [(3#8, 0x12#8), (0#8, 0x07#8)] true := by decide
theorem test_V44_05_or_indirect_indexed : Vector 0x10#8 [0xC7#8, 0x40#8]
    [(0#8, 0x01#8), (2#8, 0x03#8), (0x40#8, 0x50#8), (0x53#8, 0x08#8)]
    [(3#8, 0x12#8), (0#8, 0x09#8)] true := by decide
theorem test_V44_06_and : Vector 0x10#8 [0xD4#8, 0x40#8] [(0#8, 0x3F#8), (0x40#8, 0xF0#8)]
    [(3#8, 0x12#8), (0#8, 0x30#8)] true := by decide
theorem test_V44_07_and_keeps_flags : Vector 0x10#8 [0xD3#8, 0x00#8]
    [(0#8, 0xFF#8), (129#8, 0x03#8)] [(3#8, 0x12#8), (0#8, 0#8)] true := by decide
theorem test_V44_11_lneg : Vector 0x10#8 [0xDB#8, 0x80#8] [] [(3#8, 0x12#8), (0#8, 0x80#8)] true := by
  decide
theorem test_V44_13_lneg_wraps : Vector 0x10#8 [0xDE#8, 0xF0#8] [(2#8, 0x20#8)]
    [(3#8, 0x12#8), (0#8, 0x22#8)] true := by decide

/-! ## One step: arithmetic, load, store -/

theorem test_V45_04_add_both_flags : Vector 0x10#8 [0x06#8, 0x40#8]
    [(0#8, 0x80#8), (2#8, 0x02#8), (0x42#8, 0x80#8)]
    [(3#8, 0x12#8), (0#8, 0#8), (129#8, 0x03#8)] true := by decide
theorem test_V45_07_add_own_flags : Vector 0x10#8 [0x04#8, 0x81#8]
    [(0#8, 0x01#8), (129#8, 0x03#8)] [(3#8, 0x12#8), (0#8, 0x04#8), (129#8, 0#8)] true := by decide
theorem test_V45_11_sub_overflow : Vector 0x10#8 [0x0B#8, 0x01#8] [(0#8, 0x80#8)]
    [(3#8, 0x12#8), (0#8, 0x7F#8), (129#8, 0x01#8)] true := by decide
theorem test_V45_14_sub_borrow : Vector 0x10#8 [0x8B#8, 0x01#8] []
    [(3#8, 0x12#8), (2#8, 0xFF#8), (131#8, 0x02#8)] true := by decide
theorem test_V45_20_load_old_index : Vector 0x10#8 [0x96#8, 0x40#8]
    [(2#8, 0x02#8), (0x42#8, 0x09#8)] [(3#8, 0x12#8), (2#8, 0x09#8)] true := by decide
theorem test_V45_24_load_at_the_top : Vector 0xFF#8 [0x13#8] [(0#8, 0x44#8)]
    [(3#8, 0x01#8)] true := by decide
theorem test_V45_29_store_immediate : Vector 0x10#8 [0x1B#8, 0x00#8] [(0#8, 0x77#8)]
    [(3#8, 0x12#8), (0x11#8, 0x77#8)] true := by decide
theorem test_V45_30_store_pc : Vector 0x10#8 [0x1C#8, 0x03#8] [(0#8, 0x20#8)]
    [(3#8, 0x22#8)] true := by decide

/-! ## One step: where the model refuses -/

theorem test_legacy_pc_refuses :
    stopOf (step (machine { Params.default with legacyPc := true })) = some .legacyPcTiming := by decide
theorem test_hook_reenters :
    stopOf (step (hooked 0x30#8 [0x90#8] .reentered)) = some .hookReentered := by decide
theorem test_hook_diverges :
    stopOf (step (hooked 0x30#8 [0xCB#8, 0#8] .diverged)) = some .hookDiverged := by decide

/-! ## One cycle -/

theorem test_C1_2_start : Row (pressing State.reset 0x2000#16 0x2000#16) [] true .run 0#8 none 0#8 0#8 := by
  decide
theorem test_C1_3_halt :
    Row (pressing ((State.reset.withRun true).withMode .run) 0x2000#16 0#16)
      [(3#8, 1#8)] false .run 0#8 none 0#8 0#8 := by decide
theorem test_C2_1_toggle :
    Row (pressing ((machine { Params.default with toggleMode := true }).memWrite 255#8 0x5A#8) 8#16 8#16)
      [(255#8, 0x52#8)] false .input 0#8 none 0x52#8 0xF1#8 := by decide
theorem test_C3_2_clear_all :
    Row (pressing ((State.reset.memWrite 0x40#8 0x77#8).memWrite 3#8 9#8) 0x1100#16 0x1000#16)
      [(0x40#8, 0#8), (3#8, 0#8)] false .none 4#8 none 0#8 0xF0#8 := by decide
theorem test_C3_7_store :
    Row (pressing ((State.reset.memWrite 255#8 0x13#8).withCursor 4#8) 0x1000#16 0x1000#16)
      [(4#8, 0x13#8)] false .memory 5#8 none 0x13#8 0xF4#8 := by decide
theorem test_C3_24_set :
    Row (pressing ((State.reset.memWrite 255#8 3#8).withCursor 8#8) 0x0400#16 0x0400#16)
      [] false .address 3#8 none 3#8 0xF2#8 := by decide
theorem test_C3_29_read :
    Row (pressing ((State.reset.memWrite 4#8 0x13#8).withCursor 4#8) 0x0800#16 0x0800#16)
      [] false .memory 5#8 none 0x13#8 0xF4#8 := by decide

/-- The running machine of scenario C4, at an address, with the input latch at a value. -/
def copying (pc : Addr) (latch : Byte) : State :=
  ((prepared Params.default pc [] [(4#8, 0x14#8), (5#8, 0xFF#8), (6#8, 0x1C#8), (7#8, 0x80#8),
    (8#8, 0xE4#8), (9#8, 4#8), (255#8, latch)]).withRun true).withMode .run

theorem test_C4_2_digit_while_running :
    Row (pressing (copying 6#8 0#8) 1#16 1#16)
      [(3#8, 8#8), (255#8, 1#8)] true .run 0#8 none 0#8 0#8 := by decide
theorem test_C4_6_read_is_ignored :
    Row (pressing (copying 8#8 0x21#8) 0x0800#16 0x0800#16) [(3#8, 4#8)] true .run 0#8 none 0#8 0#8 := by
  decide
theorem test_C4_10_stop_with_digit :
    Row (pressing (copying 4#8 0#8) 0x4004#16 0x4000#16)
      [] false .run 0#8 (some 2#4) 0#8 0#8 := by decide
theorem test_C4_14_aborted_delay :
    Row (answering ((copying 6#8 0#8).withDelay (some 2#4))
        { Oracle.empty with samples := [some ⟨0#16, 0#16⟩], sleeps := [false] })
      [(3#8, 8#8)] false .run 0#8 (some 2#4) 0#8 0#8 := by decide
theorem test_C5_2_single_step :
    Row (pressing (prepared Params.default 4#8 [3#8, 1#8] [(0#8, 0x7F#8)]) 0x6000#16 0x2000#16)
      [(0#8, 0x80#8), (3#8, 6#8), (129#8, 1#8)] false .run 0#8 none 0#8 0#8 := by decide
theorem test_C5_5_debounce_disagrees :
    Row (answering State.reset { Oracle.empty with samples := [none] })
      [] false .none 0#8 none 0#8 0xF0#8 := by decide
theorem test_C5_6_panel_read :
    Row (answering ((State.reset.memWrite 0#8 0x80#8).memWrite 1#8 0x33#8)
        { Oracle.empty with samples := [some ⟨0x4800#16, 0x0800#16⟩], cfgReads := [9#8] })
      [(1#8, 9#8)] false .none 0#8 none 9#8 0xF0#8 := by decide
theorem test_C5_7_panel_write_refused :
    Row (answering ((State.reset.memWrite 0#8 0x80#8).withDisp 9#8)
        { Oracle.empty with samples := [some ⟨0x5000#16, 0x1000#16⟩], cfgWrites := [false] })
      [] false .none 0#8 none 9#8 0xF0#8 := by decide
theorem test_C5_9_canned :
    Row (answering State.reset
        { Oracle.empty with samples := [some ⟨0x4040#16, 0x0040#16⟩], canned := [[(3#8, 4#8)]] })
      [(3#8, 4#8)] false .none 0#8 none 0x40#8 0xF0#8 := by decide
theorem test_slot_without_effect :
    Row (answering State.reset
        { Oracle.empty with samples := [some ⟨0x0801#16, 0x0800#16⟩], slotLoads := [⟨true, none⟩] })
      [] false .none 0#8 none 0#8 0xF0#8 := by decide

/-! ## Serial protocol (95 S6, and the loader's rules of R249) -/

/-- Choices of the points that the grammar leaves open. -/
def sampleRules : SerialRules := 
  ⟨false, true, .ends, false, .lower, fun _ => false, true, true, fun _ => 0#8⟩

/-- The byte 0x53 is sent as the five characters `0123,`. -/
theorem test_dump_byte : dumpBytes [10#8] [0x53#8] = [48#8, 49#8, 50#8, 51#8, 44#8] := by decide
/-- Base 8, a delimiter, base 16 after an `x`, a stop at `s`: the text `17,x2a,s5,`. -/
theorem test_parse :
    parseBytes sampleRules
      [49#8, 55#8, 44#8, 120#8, 50#8, 97#8, 44#8, 115#8, 53#8, 44#8] = [0x0F#8, 0x2A#8] := by decide
/-- Where an `x` holds for one value, `x,53,` reads 53 in either base, as the open point chooses. -/
theorem test_parse_bare_delimiter :
    parseBytes sampleRules [120#8, 44#8, 53#8, 51#8, 44#8] = [0x2B#8] ∧
    parseBytes { sampleRules with bareDelimiterResets := false }
      [120#8, 44#8, 53#8, 51#8, 44#8, 49#8, 48#8, 44#8] = [0x53#8, 0x08#8] := by decide
/-- `x2a,` and `x2A,` in base 16: a letter that is no digit is a delimiter. -/
theorem test_parse_hex_letters :
    parseBytes { sampleRules with hexLetters := .upper } [120#8, 50#8, 97#8, 44#8] = [0x02#8] ∧
    parseBytes { sampleRules with hexLetters := .upper } [120#8, 50#8, 65#8, 44#8] = [0x2A#8] ∧
    parseBytes { sampleRules with hexLetters := .both } [120#8, 65#8, 97#8, 44#8] = [0xAA#8] := by
  decide
/-- A newline keeps only delimiters, and is a line feed where none is left. -/
theorem test_newline :
    newlineOf [13#8, 55#8, 10#8] = [13#8, 10#8] ∧ newlineOf [120#8, 101#8] = [10#8] := by decide
theorem test_checksum : checksum [0xFF#8, 0x02#8] = 0x01#8 := by decide

/-! ## Witnesses: the hypotheses of the obligations can be met -/

theorem witness_DecodeOfEncodeIsTheInstruction :
    (Instr.sftr .b 4).wf = true ∧ (Instr.ext1 0xF8#8).wf = true ∧
    (Instr.store .x .indIdx 0xFF#8).wf = true := by decide
theorem witness_EncodeOfDecodeIsTheBytes :
    decode [0x1F#8, 0x40#8, 0#8] = .ok (.store .a .indIdx 0x40#8, [0#8]) ∧
    decode [0x80#8] = .ok (.nop 0#1, []) := ⟨rfl, rfl⟩
theorem witness_StepRunsTheDecodedInstruction :
    ∃ s : State, decode (if opcodeLength (s.memRead (s.memRead 3#8)) = 1 then
        [s.memRead (s.memRead 3#8)]
      else [s.memRead (s.memRead 3#8), s.memRead (s.memRead 3#8 + 1#8)]) =
        .ok (.load .a .imm 0x2A#8, []) ∧ (Instr.load .a .imm 0x2A#8).wf = true :=
  ⟨prepared bare 4#8 [0x13#8, 0x2A#8] [], rfl, rfl⟩
theorem witness_StepRunsTheDecodedInstruction_one_byte :
    decode (if opcodeLength (State.reset.memRead (State.reset.memRead 3#8)) = 1 then
        [State.reset.memRead (State.reset.memRead 3#8)]
      else [State.reset.memRead (State.reset.memRead 3#8),
        State.reset.memRead (State.reset.memRead 3#8 + 1#8)]) = .ok (.halt 0#4, []) := rfl
theorem witness_EveryStepCompletes :
    (State.reset.CurrentPc ∧ State.reset.KnownHook) ∧
    (machine bare).CurrentPc ∧ (machine bare).KnownHook :=
  ⟨⟨rfl, fun h => nomatch h⟩, rfl, fun h => nomatch h⟩
theorem witness_LegacyPcRefusesEveryInstruction :
    (machine { Params.default with legacyPc := true }).params.legacyPc = true := rfl

/-- The hypothesis shared by the statements of the instructions' effects, in the reset state: it is the
only one of HaltAdvancesAndReturnsFalse, NopOnlyAdvances, Skp0SkipsWhenTheBitIsZero,
Skp1SkipsWhenTheBitIsOne, OrWritesA, AndWritesA, LnegNegatesIntoA, AddWritesSumAndFlags,
SubWritesDifferenceAndFlags, LoadCopiesTheOperand and StoreWritesTheOperandLocation. -/
theorem witness_current_pc : State.reset.CurrentPc := rfl

theorem witness_HaltAdvancesAndReturnsFalse :
    State.reset.CurrentPc ∧ ∃ t, exec (.halt 0b1111#4) State.reset = .next t := ⟨rfl, _, rfl⟩
theorem witness_NopOnlyAdvances :
    State.reset.CurrentPc ∧ ∃ t, exec (.nop 1#1) State.reset = .next t := ⟨rfl, _, rfl⟩
theorem witness_ExtensionsAreNoOpsOfTheirLength :
    ((machine bare).CurrentPc ∧ IsExtension (.ext1 0xF0#8) 0xF0#8 1#8 ∧
      (machine bare).params.hook = .standalone) ∧
    (State.reset.CurrentPc ∧ IsExtension (.ext2 .imm 0#8) 0xCB#8 2#8 ∧
      State.reset.params.hook = .controller ∧ 0xCB#8 ≠ State.reset.params.syscallOpcode) :=
  ⟨⟨rfl, .inl ⟨rfl, rfl⟩, rfl⟩, rfl, .inr ⟨.imm, 0#8, rfl, by decide, rfl⟩, rfl, by decide⟩
theorem witness_SystemCallReadPutsTheAnswerInB :
    let s := calling 0x05#8 0#8 { Oracle.empty with cfgReads := [0x42#8] }
    s.CurrentPc ∧ IsSystemCall s (.ext1 0xF0#8) 1#8 ∧ (s.memRead 0#8).getLsbD 7 = false ∧
      s.sysIndex ≠ 0x7F#7 ∧ (s.askCfgRead s.sysIndex).1 = 0x42#8 :=
  ⟨rfl, ⟨rfl, .inl ⟨rfl, rfl⟩⟩, by decide, by decide, by decide⟩
theorem witness_CapabilityProbeClearsB :
    (let s := calling 0x7F#8 0xFF#8 Oracle.empty
     s.CurrentPc ∧ IsExtension (.ext1 0xF0#8) s.params.syscallOpcode 1#8 ∧
      s.params.hook = .controller ∧ s.memRead 0#8 = 0x7F#8) ∧
    (let s := prepared bare 0x08#8 [0xF0#8] [(0#8, 0x7F#8), (1#8, 0x99#8)]
     s.CurrentPc ∧ IsExtension (.ext1 0xF0#8) s.params.syscallOpcode 1#8 ∧
      s.params.hook = .standalone) ∧
    (let s := calling 0xFF#8 0x01#8 { Oracle.empty with cfgWrites := [true] }
     s.CurrentPc ∧ IsExtension (.ext1 0xF0#8) s.params.syscallOpcode 1#8 ∧
      s.params.hook = .controller ∧ s.memRead 0#8 = 0xFF#8) :=
  ⟨⟨rfl, .inl ⟨rfl, rfl⟩, rfl, by decide⟩, ⟨rfl, .inl ⟨rfl, rfl⟩, rfl⟩,
    ⟨rfl, .inl ⟨rfl, rfl⟩, rfl, by decide⟩⟩
theorem witness_SystemCallWriteReturnsTheStoresAnswer :
    let s := calling 0x85#8 0x2A#8 { Oracle.empty with cfgWrites := [false] }
    s.CurrentPc ∧ IsSystemCall s (.ext1 0xF0#8) 1#8 ∧ (s.memRead 0#8).getLsbD 7 = true ∧
      (s.askCfgWrite s.sysIndex (s.memRead 1#8)).1 = false :=
  ⟨rfl, ⟨rfl, .inl ⟨rfl, rfl⟩⟩, by decide, by decide⟩
/-- The system call on an EXT2 opcode: two bytes long. -/
theorem witness_system_call_on_ext2 :
    IsSystemCall (machine { Params.default with syscallOpcode := 0xCB#8 }) (.ext2 .imm 0x10#8) 2#8 :=
  ⟨rfl, .inr ⟨.imm, 0x10#8, rfl, by decide, rfl⟩⟩
theorem witness_HookCallIsFollowedByTheAdvance :
    (let s := hooked 0x30#8 [0x90#8] (.ran [(3#8, 0x50#8)] true)
     s.CurrentPc ∧ IsExtension (.ext1 0x90#8) 0x90#8 1#8 ∧ s.params.hook = .custom ∧
      (s.askHook 0x90#8).1 = .ran [(3#8, 0x50#8)] true) ∧
    ((hooked 0x30#8 [0x90#8] .reentered).askHook 0x90#8).1 = .reentered ∧
    ((hooked 0x30#8 [0x90#8] .diverged).askHook 0x90#8).1 = .diverged :=
  ⟨⟨rfl, .inl ⟨rfl, rfl⟩, rfl, rfl⟩, rfl, rfl⟩
theorem witness_ShiftLeftFillsWithZeros :
    State.reset.CurrentPc ∧ 1 ≤ 1 ∧ 1 ≤ 4 ∧ 1 ≤ 4 ∧ 4 ≤ 4 := ⟨rfl, by decide⟩
theorem witness_RotateLeftIsEightBit :
    State.reset.CurrentPc ∧ State.reset.params.legacyShift = false ∧ 1 ≤ 4 ∧ 4 ≤ 4 :=
  ⟨rfl, rfl, by decide⟩
theorem witness_ShiftRightDividesTheSignedValue :
    State.reset.CurrentPc ∧ State.reset.params.legacyShift = false ∧ 1 ≤ 1 ∧ 1 ≤ 4 :=
  ⟨rfl, rfl, by decide⟩
theorem witness_RotateRightIsEightBit :
    State.reset.CurrentPc ∧ State.reset.params.legacyShift = false ∧ 1 ≤ 3 ∧ 3 ≤ 4 :=
  ⟨rfl, rfl, by decide⟩
theorem witness_LegacyShiftZeroFillsAndLeavesRotatesOpen :
    let s := machine { Params.default with legacyShift := true }
    s.CurrentPc ∧ s.params.legacyShift = true ∧ 1 ≤ 2 ∧ 2 ≤ 4 := ⟨rfl, rfl, by decide⟩
theorem witness_FourRotatesByOneAreOneByFour :
    State.reset.CurrentPc ∧ State.reset.params.legacyShift = false := ⟨rfl, rfl⟩
theorem witness_Set0ClearsTheBit :
    State.reset.CurrentPc ∧ 2#8 ≠ 3#8 ∧ 4#8 ≠ 3#8 ∧
    ∃ t, exec (.set0 2#3 3#8) State.reset = .next t := ⟨rfl, by decide, by decide, _, rfl⟩
theorem witness_Set1SetsTheBit :
    State.reset.CurrentPc ∧ 2#8 ≠ 3#8 ∧ 4#8 ≠ 3#8 ∧
    ∃ t, exec (.set1 7#3 3#8) State.reset = .next t := ⟨rfl, by decide, by decide, _, rfl⟩
theorem witness_Skp0SkipsWhenTheBitIsZero :
    State.reset.CurrentPc ∧ (State.reset.memRead 0x40#8).getLsbD 7 = false := ⟨rfl, by decide⟩
theorem witness_Skp1SkipsWhenTheBitIsOne :
    (State.reset.memWrite 0x40#8 0x80#8).CurrentPc ∧
    ((State.reset.memWrite 0x40#8 0x80#8).memRead 0x40#8).getLsbD 7 = true := ⟨rfl, by decide⟩
theorem witness_SetThenSkipAgree : State.reset.CurrentPc ∧ 2#8 ≠ 3#8 := ⟨rfl, by decide⟩

/-- The reset state with a value in register B. -/
def withB (v : Byte) : State := State.reset.memWrite 1#8 v

/-- The boundary values of the jump conditions: each holds and fails somewhere (V43-cond). -/
theorem witness_jump_conditions :
    JumpHolds (withB 0x01#8) (.reg .b .ne) ∧ ¬ JumpHolds (withB 0#8) (.reg .b .ne) ∧
    JumpHolds (withB 0#8) (.reg .b .eq) ∧ ¬ JumpHolds (withB 0xFF#8) (.reg .b .eq) ∧
    JumpHolds (withB 0x80#8) (.reg .b .lt) ∧ ¬ JumpHolds (withB 0#8) (.reg .b .lt) ∧
    JumpHolds (withB 0#8) (.reg .b .ge) ∧ ¬ JumpHolds (withB 0xFF#8) (.reg .b .ge) ∧
    JumpHolds (withB 0x7F#8) (.reg .b .gt) ∧ ¬ JumpHolds (withB 0#8) (.reg .b .gt) := by
  unfold JumpHolds
  decide
theorem witness_JumpDirectGoesToTheOperand :
    State.reset.CurrentPc ∧ JumpHolds State.reset (.reg .a .eq) ∧
    ¬ JumpHolds State.reset (.reg .x .gt) := by
  unfold JumpHolds; exact ⟨rfl, by decide⟩
theorem witness_JumpIndirectGoesThroughTheOperand :
    State.reset.CurrentPc ∧ JumpHolds State.reset (.always .gt) ∧
    ¬ JumpHolds State.reset (.reg .a .ne) := by
  unfold JumpHolds; exact ⟨rfl, by decide⟩
theorem witness_JumpAndMarkDirectStoresTheReturnAddress :
    State.reset.CurrentPc ∧ JumpHolds State.reset (.reg .x .ge) ∧
    ¬ JumpHolds State.reset (.reg .b .lt) := by
  unfold JumpHolds; exact ⟨rfl, by decide⟩
theorem witness_JumpAndMarkIndirectStoresTheReturnAddress :
    State.reset.CurrentPc ∧ JumpHolds State.reset (.always .ne) ∧
    ¬ JumpHolds State.reset (.reg .a .lt) := by
  unfold JumpHolds; exact ⟨rfl, by decide⟩
theorem witness_ReturnThroughTheMarkCell :
    State.reset.CurrentPc ∧ 4#8 ≠ 3#8 ∧ JumpHolds State.reset (.reg .a .eq) := by
  unfold JumpHolds; exact ⟨rfl, by decide⟩
theorem witness_OrWritesA :
    State.reset.CurrentPc ∧ ∃ t, exec (.or .imm 1#8) State.reset = .next t := ⟨rfl, _, rfl⟩
theorem witness_AndWritesA :
    State.reset.CurrentPc ∧ ∃ t, exec (.and .ind 1#8) State.reset = .next t := ⟨rfl, _, rfl⟩
theorem witness_LnegNegatesIntoA :
    State.reset.CurrentPc ∧ ∃ t, exec (.lneg .idx 1#8) State.reset = .next t := ⟨rfl, _, rfl⟩
theorem witness_AddWritesSumAndFlags :
    State.reset.CurrentPc ∧ ∃ t, exec (.add .x .mem 2#8) State.reset = .next t := ⟨rfl, _, rfl⟩
theorem witness_SubWritesDifferenceAndFlags :
    State.reset.CurrentPc ∧ ∃ t, exec (.sub .a .mem 0#8) State.reset = .next t := ⟨rfl, _, rfl⟩
theorem witness_LoadCopiesTheOperand :
    State.reset.CurrentPc ∧ ∃ t, exec (.load .b .mem 3#8) State.reset = .next t := ⟨rfl, _, rfl⟩
theorem witness_StoreWritesTheOperandLocation :
    State.reset.CurrentPc ∧ ea State.reset .mem 3#8 = 3#8 ∧ ea State.reset .imm 3#8 ≠ 3#8 :=
  ⟨rfl, by decide⟩
theorem witness_EveryOtherByteIsUnchanged :
    State.reset.KnownHook ∧ (∃ t, exec (.store .a .mem 0x40#8) State.reset = .next t) ∧
    0x41#8 ≠ 3#8 ∧ 0x41#8 ∉ destinations (.store .a .mem 0x40#8) ∧
    storeAddress State.reset (.store .a .mem 0x40#8) ≠ some 0x41#8 :=
  ⟨(fun h => nomatch h), ⟨_, rfl⟩, by decide⟩
/-- Both ways in which a flags byte can change: SUB, and a store to its address. -/
theorem witness_OnlyAddAndSubWriteFlags :
    State.reset.KnownHook ∧
    (∃ t, exec (.sub .x .imm 1#8) (State.reset.memWrite 1#8 1#8) = .next t ∧
      t.memRead (Reg.flagsAddr .x) ≠ (State.reset.memWrite 1#8 1#8).memRead (Reg.flagsAddr .x)) ∧
    (∃ t, exec (.store .b .mem 131#8) (State.reset.memWrite 1#8 1#8) = .next t ∧
      t.memRead (Reg.flagsAddr .x) ≠ (State.reset.memWrite 1#8 1#8).memRead (Reg.flagsAddr .x)) :=
  ⟨(fun h => nomatch h), ⟨_, rfl, by decide⟩, ⟨_, rfl, by decide⟩⟩
theorem witness_NoInstructionReachesTheController :
    ∃ t, exec (.jmd (.always .eq) 3#8) State.reset = .next t := ⟨_, rfl⟩
/-- The three sources of a false result. -/
theorem witness_SourcesOfKeepFalse :
    (∃ t, exec (.halt 0#4) State.reset = .next t ∧ t.keep = false) ∧
    (∃ t, exec (.ext1 0xB8#8) (hooked 0x30#8 [0xB8#8] (.ran [] false)) = .next t ∧
      t.keep = false) ∧
    (∃ t, exec (.ext1 0xF0#8) (calling 0x85#8 0x2A#8 { Oracle.empty with cfgWrites := [false] }) =
      .next t ∧ t.keep = false) :=
  ⟨⟨_, rfl, rfl⟩, ⟨_, rfl, rfl⟩, ⟨_, rfl, by decide⟩⟩
theorem witness_StepDependsOnlyOnMemoryAndAnswers :
    let s := State.reset
    let s' := (s.withRun true).withKeep false
    s'.mem = s.mem ∧ s'.params = s.params ∧ s'.oracle = s.oracle ∧ s' ≠ s ∧ ∃ t, step s = .next t :=
  ⟨rfl, rfl, rfl, by decide, _, rfl⟩
theorem witness_StepKeepsTheStateSafe :
    State.reset.safe = true ∧ ∃ t, step State.reset = .next t := ⟨by decide, _, rfl⟩
theorem witness_CycleKeepsTheStateSafe :
    (pressing State.reset 0x2000#16 0x2000#16).safe = true ∧
    ∃ t, cycle (pressing State.reset 0x2000#16 0x2000#16) = .next t := ⟨by decide, _, rfl⟩
theorem witness_EveryCycleEndsWithARender :
    ∃ t, cycle (pressing State.reset 0x0100#16 0x0100#16) = .next t := ⟨_, rfl⟩
/-- Both ways: the samples disagree, and a held button without a new press. -/
theorem witness_HaltedCycleWithoutPressOnlyRenders :
    ((answering State.reset { Oracle.empty with samples := [none] }).askSample true).1 = none ∧
    ((pressing State.reset 8#16 0#16).askSample true).1 = some ⟨8#16, 0#16⟩ ∧
    newPresses Params.default ⟨8#16, 0#16⟩ = [] ∧ State.reset.run = false := by decide
/-- A digit and `CLR` pressed in one sample while running, without and with a delay that is set. -/
theorem witness_RunningCycleIsOneStep :
    (pressing (copying 4#8 0#8) 0x101#16 0x101#16).run = true ∧
    ((pressing (copying 4#8 0#8) 0x101#16 0x101#16).askSample false).1 =
      some ⟨0x101#16, 0x101#16⟩ ∧
    newPresses Params.default ⟨0x101#16, 0x101#16⟩ = [.digit 0, .clr] ∧
    (∃ u, step (pressing (copying 4#8 0#8) 0x101#16 0x101#16).sampleRunning = .next u) ∧
    ((copying 4#8 0#8).withDelay (some 7#4)).delay = some 7#4 :=
  ⟨rfl, rfl, by decide, ⟨_, rfl⟩, rfl⟩
/-- `STOP` alone, and pressed in one sample with a digit. -/
theorem witness_StopEndsTheRunWithoutAStep :
    (copying 4#8 0#8).run = true ∧
    ((pressing (copying 4#8 0#8) 0x4000#16 0x4000#16).askSample false).1 =
      some ⟨0x4000#16, 0x4000#16⟩ ∧
    newPresses Params.default ⟨0x4000#16, 0x4000#16⟩ = [.stop] ∧
    ((pressing (copying 4#8 0#8) 0x4001#16 0x4001#16).askSample false).1 =
      some ⟨0x4001#16, 0x4001#16⟩ ∧
    newPresses Params.default ⟨0x4001#16, 0x4001#16⟩ = [.digit 0, .stop] :=
  ⟨rfl, rfl, by decide, rfl, by decide⟩

/-- A button order in which digit 0 lies above `STOP`. -/
def stopBelowDigit : Params :=
  { Params.default with btnBit := [15, 1, 2, 3, 4, 5, 6, 7, 8, 9, 10, 11, 12, 13, 14] }

/-- A run that ends at a HALT, at `STOP`, and at an aborted delay; in the default order no bit lies
above `STOP`'s. -/
theorem witness_RunEndsInRunMode :
    (∀ b ∈ Button.all, Params.default.bitOf b ≤ Params.default.bitOf .stop) ∧
    (∃ t, EndsRun (pressing (State.reset.withRun true) 0#16 0#16) t) ∧
    (∃ t, EndsRun (pressing (copying 4#8 0#8) 0x4001#16 0x4001#16) t) ∧
    (∃ t, EndsRun (answering ((copying 6#8 0#8).withDelay (some 2#4))
      { Oracle.empty with samples := [some ⟨0#16, 0#16⟩], sleeps := [false] }) t) :=
  ⟨by decide, ⟨_, rfl, rfl, rfl⟩, ⟨_, rfl, rfl, rfl⟩, ⟨_, rfl, rfl, rfl⟩⟩
/-- In another order a digit is dispatched after `STOP`, and the run ends in Input mode. -/
theorem witness_RunEndsInRunMode_other_order :
    ∃ t, EndsRun (pressing ((machine stopBelowDigit).withRun true) 0xC000#16 0xC000#16) t ∧
      newPresses stopBelowDigit ⟨0xC000#16, 0xC000#16⟩ = [] ++ .stop :: [.digit 0] :=
  ⟨_, ⟨rfl, rfl, rfl⟩, by decide⟩
theorem witness_OtherButtonsAreIgnoredWhileRunning :
    dispatchRunning (.digit 0) none State.reset ≠ State.reset ∧
    dispatchRunning .clr none State.reset ≠ State.reset ∧
    dispatchRunning .stop none State.reset ≠ State.reset ∧
    (∃ k, Button.digit 7 = .digit k) := ⟨by decide, by decide, by decide, 7, rfl⟩
theorem witness_ChordPartnerIsTheFirstHeld :
    chordPartner Params.default 0x6004#16 .start = some (.digit 2) ∧
    chordPartner Params.default 0x2000#16 .start = none := by decide
theorem witness_DigitButtonChangesOneLatchBit :
    (none : Option Button) ≠ some .stop ∧ some (Button.digit 7) ≠ some .stop := by decide
theorem witness_ClearCommands : some Button.store ≠ some .stop := by decide
/-- Partners that the entries do not list; indices at and beside that of the capability probe. -/
theorem witness_AddressAndMemoryButtons :
    (∀ k, some Button.start ≠ some (.digit k)) ∧ some Button.start ≠ some .stop ∧
    some Button.start ≠ some .clr ∧ some Button.clr ≠ some .stop ∧
    (State.reset.memWrite 0#8 0xFF#8).sysIndex = 0x7F#7 ∧
    (State.reset.memWrite 0#8 0xFE#8).sysIndex ≠ 0x7F#7 :=
  ⟨nofun, nofun, nofun, nofun, by decide, by decide⟩
theorem witness_RunButtons :
    some Button.clr ≠ some .stop ∧ ∃ u, step (copying 8#8 0#8) = .next u := ⟨by decide, _, rfl⟩
theorem witness_SerialDumpReloadsExactly :
    ∀ c ∈ [13#8, 10#8], digitValue sampleRules false c = none ∧ isStopChar c = false ∧
      isHexChar c = false := by decide
/-- A range of 256 bytes waits for a dump, and the characters of any dump for a load. -/
theorem witness_SerialDumpReloadsExactly_commands (chars : List Byte) :
    ((answering State.reset { Oracle.empty with dumpRanges := [⟨0x80#8, 256⟩] }).askDumpRange
      3).1 = ⟨0x80#8, 256⟩ ∧
    ((answering State.reset { Oracle.empty with
      serialLoads := [⟨0x80#8, 256, chars⟩] }).askSerialLoad 0).1 = ⟨0x80#8, 256, chars⟩ := ⟨rfl, rfl⟩

end Sys2Proof.Tests
end

section
/-! PROOFS. The end of an instruction as a rule for `RunsTo`, and NOP (spec 40_halt_nop_ext.md). -/

namespace Sys2Proof.Machine

/-! ## The end of an instruction, for `RunsTo` -/

theorem State.SameOutside.refl (s : State) : s.SameOutside s := ⟨rfl, rfl⟩

theorem State.SameBesideMemory.refl (s : State) : s.SameBesideMemory s := ⟨.refl s, .refl s⟩

/-- The deferred advance (R27) and the result touch nothing beside memory and the result. -/
theorem State.SameBesideMemory.complete {s u : State} (h : s.SameBesideMemory u) (n : Byte)
    (keep : Bool) : s.SameBesideMemory ((u.advance n).withKeep keep) := by
  obtain ⟨hcontrol, horacle, hsent⟩ := h
  exact ⟨hcontrol.trans (u.sameControl_end n keep), by simpa using horacle, by simpa using hsent⟩

/-- An instruction whose body ends in `u`, having changed memory only, leaves the bytes of `u` with the
deferred advance (R27) added at address 3. -/
theorem runsTo_of_exec_eq_complete {i : Instr} {s u : State} {n : Byte} {keep : Bool}
    (hcurrent : s.CurrentPc) (hexec : exec i s = u.complete n keep) (hbody : s.SameBesideMemory u) :
    RunsTo i s keep fun a => if a = 3#8 then u.memRead 3#8 + n else u.memRead a := by
  have hcurrent' : u.CurrentPc := (congrArg Params.legacyPc hbody.1.params).trans hcurrent
  exact ⟨_, hexec.trans (State.complete_of_current hcurrent' n keep), rfl, hbody.complete n keep,
    u.memRead_advance n⟩

/-! ## NOP (R102) -/

/-- NOP has no body: it is the end of an instruction of one byte that keeps running. -/
theorem exec_nop (ign : BitVec 1) (s : State) : exec (.nop ign) s = s.complete 1#8 true := rfl

end Sys2Proof.Machine

namespace Sys2Proof

@[simp] theorem encode_nop (ign : BitVec 1) :
    encode (.nop ign) = [(1#1 ++ ign ++ 0#6 : BitVec 8)] := rfl

open Machine

/-- Settles O8: NOP is the end of an instruction with an empty body, so only the deferred advance
changes a byte. -/
theorem nopOnlyAdvances : Obligations.NopOnlyAdvances := by
  intro ign s hcurrent
  exact ⟨encode_nop ign,
    runsTo_of_exec_eq_complete hcurrent (exec_nop ign s) (State.SameBesideMemory.refl s)⟩

end Sys2Proof
end

section
/-! PROOFS. The bit test as bit `b` of the byte, and the two skips (spec 42_bit_ops.md). -/

namespace Sys2Proof.Machine

/-! ## The bit test -/

theorem bitMask_eq_twoPow (bit : BitVec 3) : bitMask bit = BitVec.twoPow 8 bit.toNat := rfl

/-- Every bit index has a bit in a byte, so its mask is not 0 (R126). -/
theorem bitMask_ne_zero (bit : BitVec 3) : bitMask bit ≠ 0#8 := by
  revert bit
  decide

/-- The test through the mask (R126) reads the bit at the index. -/
theorem bitIsSet_eq_getLsbD (bit : BitVec 3) (v : Byte) : bitIsSet bit v = v.getLsbD bit.toNat := by
  have hand : v &&& bitMask bit = if v.getLsbD bit.toNat then bitMask bit else 0#8 := by
    rw [bitMask_eq_twoPow, BitVec.and_twoPow]
  unfold bitIsSet
  rw [hand]
  cases v.getLsbD bit.toNat with
  | false => rfl
  | true => exact bne_iff_ne.mpr (bitMask_ne_zero bit)

/-! ## The skips (R129 to R131) -/

/-- SKP0 is the end of an instruction whose byte count the tested bit chooses: 4 where it is 0. -/
theorem exec_skp0 (bit : BitVec 3) (opnd : Byte) (s : State) :
    exec (.skp0 bit opnd) s =
      s.complete (if (s.memRead opnd).getLsbD bit.toNat then 2#8 else 4#8) true := by
  change skipIf (!bitIsSet bit (s.memRead opnd)) s = _
  rw [bitIsSet_eq_getLsbD]
  cases (s.memRead opnd).getLsbD bit.toNat <;> rfl

/-- SKP1 is the end of an instruction whose byte count the tested bit chooses: 4 where it is 1. -/
theorem exec_skp1 (bit : BitVec 3) (opnd : Byte) (s : State) :
    exec (.skp1 bit opnd) s =
      s.complete (if (s.memRead opnd).getLsbD bit.toNat then 4#8 else 2#8) true := by
  change skipIf (bitIsSet bit (s.memRead opnd)) s = _
  rw [bitIsSet_eq_getLsbD, skipIf]

end Sys2Proof.Machine

namespace Sys2Proof

@[simp] theorem encode_skp0 (bit : BitVec 3) (opnd : Byte) :
    encode (.skp0 bit opnd) = [(2#2 ++ bit ++ 2#3 : BitVec 8), opnd] := rfl

@[simp] theorem encode_skp1 (bit : BitVec 3) (opnd : Byte) :
    encode (.skp1 bit opnd) = [(3#2 ++ bit ++ 2#3 : BitVec 8), opnd] := rfl

open Machine

/-- Settles O22: SKP0 has an empty body, and its deferred advance adds the count that the bit chooses. -/
theorem skp0SkipsWhenTheBitIsZero : Obligations.Skp0SkipsWhenTheBitIsZero := by
  intro bit opnd s hcurrent
  exact ⟨encode_skp0 bit opnd,
    runsTo_of_exec_eq_complete hcurrent (exec_skp0 bit opnd s) (State.SameBesideMemory.refl s)⟩

/-- Settles O23: SKP1 has an empty body, and its deferred advance adds the count that the bit chooses. -/
theorem skp1SkipsWhenTheBitIsOne : Obligations.Skp1SkipsWhenTheBitIsOne := by
  intro bit opnd s hcurrent
  exact ⟨encode_skp1 bit opnd,
    runsTo_of_exec_eq_complete hcurrent (exec_skp1 bit opnd s) (State.SameBesideMemory.refl s)⟩

end Sys2Proof
end

section
/-! PROOFS. The jump tests by their signed reading, and the four jumps (spec 43_jumps.md). -/

namespace Sys2Proof.Machine

/-! ## Whether a jump is taken (R142, R143) -/

theorem toInt_eq_zero_iff (v : Byte) : v.toInt = 0 ↔ v = 0#8 := by
  rw [← BitVec.toInt_inj, BitVec.toInt_zero]

/-- The tests on the bits of a register (its top bit, whether it is 0) are the tests on its signed
value. -/
theorem taken_iff_jumpHolds (s : State) (test : JumpTest) :
    taken s test = true ↔ JumpHolds s test := by
  cases test with
  | always cc => exact iff_of_true rfl trivial
  | reg r cc =>
    have hzero := toInt_eq_zero_iff (s.reg r)
    have hsign : (s.reg r).msb = decide ((s.reg r).toInt < 0) := BitVec.msb_eq_toInt
    cases cc with
    | ne => exact bne_iff_ne.trans hzero.not.symm
    | eq => exact beq_iff_eq.trans hzero.symm
    | lt => simp [taken, Cond.holds, JumpHolds, hsign]
    | ge => simp [taken, Cond.holds, JumpHolds, hsign]
    | gt =>
      simp only [taken, Cond.holds, JumpHolds, hsign, Bool.and_eq_true, Bool.not_eq_true',
        decide_eq_false_iff_not, bne_iff_ne, ne_eq, ← hzero]
      omega

theorem not_taken_iff_not_jumpHolds (s : State) (test : JumpTest) :
    taken s test = false ↔ ¬ JumpHolds s test := by
  rw [← taken_iff_jumpHolds, Bool.not_eq_true]

/-! ## The end of a jump, for `RunsTo` (R145 to R147) -/

/-- A store touches nothing beside memory. -/
theorem State.sameBesideMemory_memWrite (s : State) (a : Addr) (v : Byte) :
    s.SameBesideMemory (s.memWrite a v) := ⟨s.sameControl_memWrite a v, rfl, rfl⟩

/-- An instruction that ends by writing the program counter and adding 0 to it: that write comes after
every other write of the body `u`, and hides what `u` left at address 3. -/
theorem runsTo_of_exec_eq_writePc {i : Instr} {s u : State} {target : Addr} (hcurrent : s.CurrentPc)
    (hexec : exec i s = (u.memWrite addrPC target).complete 0#8 true)
    (hbody : s.SameBesideMemory u) :
    RunsTo i s true fun a => if a = 3#8 then target else u.memRead a := by
  obtain ⟨hcontrol, horacle, hsent⟩ := hbody
  have hruns := runsTo_of_exec_eq_complete hcurrent hexec
    ⟨hcontrol.trans (u.sameControl_memWrite addrPC target), horacle, hsent⟩
  simpa +contextual [State.memRead_memWrite] using hruns

/-- A jump that is not taken is an instruction of two bytes with an empty body (R145). -/
theorem runsTo_of_exec_eq_notTaken {i : Instr} {s : State} (hcurrent : s.CurrentPc)
    (hexec : exec i s = s.complete 2#8 true) :
    RunsTo i s true fun a => if a = 3#8 then s.memRead 3#8 + 2#8 else s.memRead a :=
  runsTo_of_exec_eq_complete hcurrent hexec (.refl s)

/-- The effect of a jump without mark, for any target (R145, R146). -/
theorem runsTo_of_exec_eq_jumpTo {i : Instr} {s : State} {test : JumpTest} {target : Addr}
    (hcurrent : s.CurrentPc) (hexec : exec i s = jumpTo (taken s test) target s) :
    (JumpHolds s test → RunsTo i s true fun a => if a = 3#8 then target else s.memRead a) ∧
    (¬ JumpHolds s test → RunsTo i s true fun a =>
      if a = 3#8 then s.memRead 3#8 + 2#8 else s.memRead a) := by
  constructor
  · intro hholds
    rw [(taken_iff_jumpHolds s test).mpr hholds] at hexec
    exact runsTo_of_exec_eq_writePc hcurrent hexec (.refl s)
  · intro hfails
    rw [(not_taken_iff_not_jumpHolds s test).mpr hfails] at hexec
    exact runsTo_of_exec_eq_notTaken hcurrent hexec

/-- The effect of a jump-and-mark, for any target (R145, R147): the mark is stored before the program
counter is written, so a mark at address 3 is lost (R150). -/
theorem runsTo_of_exec_eq_markAndJumpTo {i : Instr} {s : State} {test : JumpTest} {target : Addr}
    (hcurrent : s.CurrentPc) (hexec : exec i s = markAndJumpTo (taken s test) target s) :
    (JumpHolds s test → RunsTo i s true fun a =>
      if a = 3#8 then target + 1#8 else if a = target then s.memRead 3#8 + 2#8 else s.memRead a) ∧
    (¬ JumpHolds s test → RunsTo i s true fun a =>
      if a = 3#8 then s.memRead 3#8 + 2#8 else s.memRead a) := by
  constructor
  · intro hholds
    rw [(taken_iff_jumpHolds s test).mpr hholds] at hexec
    simpa only [State.memRead_memWrite, State.pc] using
      runsTo_of_exec_eq_writePc hcurrent hexec (s.sameBesideMemory_memWrite target (s.pc + 2#8))
  · intro hfails
    rw [(not_taken_iff_not_jumpHolds s test).mpr hfails] at hexec
    exact runsTo_of_exec_eq_notTaken hcurrent hexec

/-! ## The four jumps (R148, R149, R151, R152) -/

theorem exec_jpd (test : JumpTest) (opnd : Byte) (s : State) :
    exec (.jpd test opnd) s = jumpTo (taken s test) opnd s := rfl

theorem exec_jpi (test : JumpTest) (opnd : Byte) (s : State) :
    exec (.jpi test opnd) s = jumpTo (taken s test) (s.memRead opnd) s := rfl

theorem exec_jmd (test : JumpTest) (opnd : Byte) (s : State) :
    exec (.jmd test opnd) s = markAndJumpTo (taken s test) opnd s := rfl

/-- The target is read in the state before the mark is stored. -/
theorem exec_jmi (test : JumpTest) (opnd : Byte) (s : State) :
    exec (.jmi test opnd) s = markAndJumpTo (taken s test) (s.memRead opnd) s := rfl

end Sys2Proof.Machine

namespace Sys2Proof

@[simp] theorem encode_jpd (test : JumpTest) (opnd : Byte) :
    encode (.jpd test opnd) = [(test.fieldP ++ 4#3 ++ test.fieldR : BitVec 8), opnd] := rfl

@[simp] theorem encode_jpi (test : JumpTest) (opnd : Byte) :
    encode (.jpi test opnd) = [(test.fieldP ++ 5#3 ++ test.fieldR : BitVec 8), opnd] := rfl

@[simp] theorem encode_jmd (test : JumpTest) (opnd : Byte) :
    encode (.jmd test opnd) = [(test.fieldP ++ 6#3 ++ test.fieldR : BitVec 8), opnd] := rfl

@[simp] theorem encode_jmi (test : JumpTest) (opnd : Byte) :
    encode (.jmi test opnd) = [(test.fieldP ++ 7#3 ++ test.fieldR : BitVec 8), opnd] := rfl

open Machine

/-- Settles O25: JPD is a jump without mark to its operand byte. -/
theorem jumpDirectGoesToTheOperand : Obligations.JumpDirectGoesToTheOperand := by
  intro test opnd s hcurrent
  exact ⟨encode_jpd test opnd, runsTo_of_exec_eq_jumpTo hcurrent (exec_jpd test opnd s)⟩

/-- Settles O26: JPI is a jump without mark to the byte at its operand address. -/
theorem jumpIndirectGoesThroughTheOperand : Obligations.JumpIndirectGoesThroughTheOperand := by
  intro test opnd s hcurrent
  exact ⟨encode_jpi test opnd, runsTo_of_exec_eq_jumpTo hcurrent (exec_jpi test opnd s)⟩

/-- Settles O27: JMD is a jump-and-mark to its operand byte. -/
theorem jumpAndMarkDirectStoresTheReturnAddress :
    Obligations.JumpAndMarkDirectStoresTheReturnAddress := by
  intro test opnd s hcurrent
  exact ⟨encode_jmd test opnd, runsTo_of_exec_eq_markAndJumpTo hcurrent (exec_jmd test opnd s)⟩

/-- Settles O28: JMI is a jump-and-mark to the byte that its operand address holds before the store. -/
theorem jumpAndMarkIndirectStoresTheReturnAddress :
    Obligations.JumpAndMarkIndirectStoresTheReturnAddress := by
  intro test opnd s hcurrent
  exact ⟨encode_jmi test opnd, runsTo_of_exec_eq_markAndJumpTo hcurrent (exec_jmi test opnd s)⟩

end Sys2Proof
end

section
/-! PROOFS. OR, AND and LNEG: one byte written to A, then the deferred advance (spec 44_logic.md). -/

namespace Sys2Proof.Machine

/-! ## A body of one store, for `RunsTo` -/

/-- An instruction that stores one byte and then advances: away from the program counter the store
takes no part in the advance (R27), and every other byte is left alone. -/
theorem runsTo_of_exec_eq_store {i : Instr} {s : State} {dest : Addr} {v n : Byte} {keep : Bool}
    (hcurrent : s.CurrentPc) (hdest : dest ≠ 3#8)
    (hexec : exec i s = (s.memWrite dest v).complete n keep) :
    RunsTo i s keep fun a => if a = 3#8 then s.memRead 3#8 + n
      else if a = dest then v else s.memRead a := by
  have hruns := runsTo_of_exec_eq_complete hcurrent hexec (s.sameBesideMemory_memWrite dest v)
  simpa only [State.memRead_memWrite, if_neg hdest.symm] using hruns

theorem addrA_ne_addrPC : addrA ≠ addrPC := by decide

/-! ## The three bodies (R162 to R164) -/

theorem exec_or (mode : AddrMode) (opnd : Byte) (s : State) :
    exec (.or mode opnd) s =
      (s.memWrite addrA (s.memRead addrA ||| s.memRead (ea s mode opnd))).complete 2#8 true := rfl

theorem exec_and (mode : AddrMode) (opnd : Byte) (s : State) :
    exec (.and mode opnd) s =
      (s.memWrite addrA (s.memRead addrA &&& s.memRead (ea s mode opnd))).complete 2#8 true := rfl

/-- LNEG does not read A. -/
theorem exec_lneg (mode : AddrMode) (opnd : Byte) (s : State) :
    exec (.lneg mode opnd) s =
      (s.memWrite addrA (0#8 - s.memRead (ea s mode opnd))).complete 2#8 true := rfl

/-- `0 -8 v` is `(256 - v) mod 256` (R164). -/
theorem zero_sub_eq_ofNat (v : Byte) : 0#8 - v = BitVec.ofNat 8 (256 - v.toNat) :=
  BitVec.sub_def 0#8 v

end Sys2Proof.Machine

namespace Sys2Proof

@[simp] theorem encode_or (mode : AddrMode) (opnd : Byte) :
    encode (.or mode opnd) = [(3#2 ++ 0#3 ++ mode.field : BitVec 8), opnd] := rfl

@[simp] theorem encode_and (mode : AddrMode) (opnd : Byte) :
    encode (.and mode opnd) = [(3#2 ++ 2#3 ++ mode.field : BitVec 8), opnd] := rfl

@[simp] theorem encode_lneg (mode : AddrMode) (opnd : Byte) :
    encode (.lneg mode opnd) = [(3#2 ++ 3#3 ++ mode.field : BitVec 8), opnd] := rfl

open Machine

/-- Settles O31: OR stores one byte, A or the operand, to A. -/
theorem orWritesA : Obligations.OrWritesA := by
  intro mode opnd s hcurrent
  exact ⟨encode_or mode opnd,
    runsTo_of_exec_eq_store hcurrent addrA_ne_addrPC (exec_or mode opnd s)⟩

/-- Settles O32: AND stores one byte, A and the operand, to A. -/
theorem andWritesA : Obligations.AndWritesA := by
  intro mode opnd s hcurrent
  exact ⟨encode_and mode opnd,
    runsTo_of_exec_eq_store hcurrent addrA_ne_addrPC (exec_and mode opnd s)⟩

/-- Settles O33: LNEG stores one byte to A, 0 minus the operand, which is 256 minus it modulo 256. -/
theorem lnegNegatesIntoA : Obligations.LnegNegatesIntoA := by
  intro mode opnd s hcurrent
  have hexec := exec_lneg mode opnd s
  rw [zero_sub_eq_ofNat] at hexec
  exact ⟨encode_lneg mode opnd, runsTo_of_exec_eq_store hcurrent addrA_ne_addrPC hexec⟩

end Sys2Proof
end

section
/-! PROOFS. A result and its flags byte written together, and ADD (spec 45_arith_load_store.md). -/

namespace Sys2Proof.Machine

/-! ## A result and its flags byte, for `RunsTo` (R176) -/

theorem Reg.addr_ne_addrPC (r : Reg) : Reg.addr r ≠ addrPC := by
  cases r <;> decide

theorem Reg.flagsAddr_ne_addrPC (r : Reg) : Reg.flagsAddr r ≠ addrPC := by
  cases r <;> decide

theorem Reg.flagsAddr_ne_addr (r : Reg) : Reg.flagsAddr r ≠ Reg.addr r := by
  cases r <;> decide

/-- The two stores go to different bytes, so their order does not show. -/
theorem State.memRead_memWrite_flagsAddr_memWrite_addr (s : State) (r : Reg) (res flags : Byte)
    (a : Addr) :
    ((s.memWrite (Reg.addr r) res).memWrite (Reg.flagsAddr r) flags).memRead a =
      if a = Reg.addr r then res else if a = Reg.flagsAddr r then flags else s.memRead a := by
  have hother : a = Reg.flagsAddr r → a ≠ Reg.addr r := fun ha => ha ▸ Reg.flagsAddr_ne_addr r
  rw [State.memRead_memWrite, State.memRead_memWrite]
  exact ite_ite_comm (h := hother) ..

/-- Neither store goes to the program counter, so neither takes part in the deferred advance (R27). -/
theorem runsTo_of_exec_eq_resultWithFlags {i : Instr} {s : State} {r : Reg} {res flags : Byte}
    (hcurrent : s.CurrentPc) (hexec : exec i s = resultWithFlags r res flags s) :
    RunsTo i s true fun a => if a = 3#8 then s.memRead 3#8 + 2#8
      else if a = Reg.addr r then res else if a = Reg.flagsAddr r then flags else s.memRead a := by
  have hbody : s.SameBesideMemory ((s.memWrite (Reg.addr r) res).memWrite (Reg.flagsAddr r) flags) :=
    ⟨(s.sameControl_memWrite _ _).trans (State.sameControl_memWrite _ _ _), rfl, rfl⟩
  have hruns := runsTo_of_exec_eq_complete hcurrent hexec hbody
  simpa only [State.memRead_memWrite_flagsAddr_memWrite_addr, if_neg (Reg.addr_ne_addrPC r).symm,
    if_neg (Reg.flagsAddr_ne_addrPC r).symm] using hruns

/-! ## The flags byte (R30, R178) -/

/-- The carry is the value 2 of the flags byte and the overflow the value 1. -/
theorem flagsByte_eq_or (carry overflow : Bool) :
    flagsByte carry overflow = (if carry then 2#8 else 0#8) ||| (if overflow then 1#8 else 0#8) := by
  cases carry <;> cases overflow <;> rfl

theorem addFlags_eq_or (x v : Byte) :
    addFlags x v = (if 255 < x.toNat + v.toNat then 2#8 else 0#8) |||
      (if 127 < x.toInt + v.toInt ∨ x.toInt + v.toInt < -128 then 1#8 else 0#8) := by
  simp only [addFlags, flagsByte_eq_or, addCarry, addOverflow, outOfSigned, decide_eq_true_eq]

/-! ## ADD (R178) -/

/-- Both operands are read before either store, so an operand in the register or in its flags byte is
the old one. -/
theorem exec_add (r : Reg) (mode : AddrMode) (opnd : Byte) (s : State) :
    exec (.add r mode opnd) s =
      resultWithFlags r (s.memRead (Reg.addr r) + s.memRead (ea s mode opnd))
        (addFlags (s.memRead (Reg.addr r)) (s.memRead (ea s mode opnd))) s := rfl

end Sys2Proof.Machine

namespace Sys2Proof

@[simp] theorem encode_add (r : Reg) (mode : AddrMode) (opnd : Byte) :
    encode (.add r mode opnd) = [(r.field ++ 0#3 ++ mode.field : BitVec 8), opnd] := rfl

open Machine

/-- Settles O34: ADD writes a result and its flags byte, the sum modulo 256 and the two conditions on
the unmodified sum. -/
theorem addWritesSumAndFlags : Obligations.AddWritesSumAndFlags := by
  intro r mode opnd s hcurrent
  have hexec := exec_add r mode opnd s
  rw [addFlags_eq_or, BitVec.add_def] at hexec
  exact ⟨encode_add r mode opnd, runsTo_of_exec_eq_resultWithFlags hcurrent hexec⟩

end Sys2Proof
end

section
/-! PROOFS. Decoding and encoding are inverse to each other, and a step executes what the bytes at the
program counter decode to (spec 30_encoding.md). -/

namespace Sys2Proof

/-! ## The operand bytes -/

/-- A new operand byte replaces the old one, and an instruction without one stays without. -/
theorem Instr.withOperand_operands (i : Instr) (x : Byte) :
    (i.withOperand x).operands = i.operands.map fun _ => x := by
  cases i <;> rfl

theorem Instr.withOperand_of_no_operands {i : Instr} (h : i.operands = []) (x : Byte) :
    i.withOperand x = i := by
  cases i with
  | halt | nop | ext1 | sftr | rotr | sftl | rotl => rfl
  | set0 | set1 | skp0 | skp1 | jpd | jpi | jmd | jmi | or | ext2 | and | lneg | add | sub | load
  | store => exact absurd h (List.cons_ne_nil _ _)

/-- Every instruction is one with some operand byte put in. -/
theorem Instr.exists_withOperand_eq (i : Instr) : ∃ x, i.withOperand x = i := by
  cases i with
  | halt | nop | ext1 | sftr | rotr | sftl | rotl => exact ⟨0#8, rfl⟩
  | set0 | set1 | skp0 | skp1 | jpd | jpi | jmd | jmi | or | ext2 | and | lneg | add | sub | load
  | store => exact ⟨_, rfl⟩

/-! ## Each field is read back (R70, R75, R78, R85, R143) -/

@[simp] theorem fieldP_opcodeOf (p : BitVec 2) (q r : BitVec 3) : fieldP (opcodeOf p q r) = p := by
  revert p q r
  decide

@[simp] theorem fieldQ_opcodeOf (p : BitVec 2) (q r : BitVec 3) : fieldQ (opcodeOf p q r) = q := by
  revert p q r
  decide

@[simp] theorem fieldR_opcodeOf (p : BitVec 2) (q r : BitVec 3) : fieldR (opcodeOf p q r) = r := by
  revert p q r
  decide

@[simp] theorem Reg.ofField_field (r : Reg) : Reg.ofField r.field = r := by
  cases r <;> rfl

@[simp] theorem ShiftReg.ofField_field (r : ShiftReg) : ShiftReg.ofField r.field = r := by
  cases r <;> rfl

@[simp] theorem AddrMode.ofField_field (mode : AddrMode) : AddrMode.ofField mode.field = mode := by
  cases mode <;> rfl

@[simp] theorem Cond.ofField_field (cc : Cond) : Cond.ofField cc.field = cc := by
  cases cc <;> rfl

/-- No register has the field 3, which makes a jump unconditional. -/
theorem Reg.field_ne_three (r : Reg) : r.field ≠ 3#2 := by
  cases r <;> decide

@[simp] theorem JumpTest.ofFields_fields (test : JumpTest) :
    JumpTest.ofFields test.fieldP test.fieldR = test := by
  cases test with
  | reg r cc => simp [JumpTest.ofFields, JumpTest.fieldP, JumpTest.fieldR, Reg.field_ne_three]
  | always k => simp [JumpTest.ofFields, JumpTest.fieldP, JumpTest.fieldR]

theorem countOk_iff (count : Nat) : countOk count = true ↔ 1 ≤ count ∧ count ≤ 4 := by
  simp [countOk]

/-- The count 4 is encoded as 0. -/
theorem countOfField_countField {count : Nat} (h : countOk count = true) :
    countOfField (countField count) = count := by
  obtain ⟨hlow, hhigh⟩ := (countOk_iff count).mp h
  interval_cases count <;> rfl

/-! ## Each class is recognised (R74) -/

theorem AddrMode.three_le_field (mode : AddrMode) : 3#3 ≤ mode.field := by
  cases mode <;> decide

theorem JumpTest.three_le_fieldR (test : JumpTest) : 3#3 ≤ test.fieldR := by
  have hcond : ∀ cc : Cond, 3#3 ≤ cc.field := fun cc => by cases cc <;> decide
  cases test with
  | reg _ cc => exact hcond cc
  | always k => exact hcond k

/-- The field `fR` of a two-byte opcode beyond the bit operations is none of the three before it. -/
theorem ne_of_three_le {r : BitVec 3} (h : 3#3 ≤ r) : r ≠ 0#3 ∧ r ≠ 1#3 ∧ r ≠ 2#3 := by
  revert r
  decide

theorem decodeBytes_bit (p : BitVec 2) (q : BitVec 3) (x : Byte) :
    decodeBytes (opcodeOf p q 2#3) x = decodeBit (opcodeOf p q 2#3) x := by
  simp [decodeBytes]

theorem decodeBytes_jump (p : BitVec 2) {q r : BitVec 3} (x : Byte) (hr : 3#3 ≤ r) (hq : 4#3 ≤ q) :
    decodeBytes (opcodeOf p q r) x = decodeJump (opcodeOf p q r) x := by
  simp [decodeBytes, ne_of_three_le hr, hq]

theorem decodeBytes_logic {q r : BitVec 3} (x : Byte) (hr : 3#3 ≤ r) (hq : ¬ 4#3 ≤ q) :
    decodeBytes (opcodeOf 3#2 q r) x = decodeLogic (opcodeOf 3#2 q r) x := by
  simp [decodeBytes, ne_of_three_le hr, hq]

theorem decodeBytes_arith {p : BitVec 2} {q r : BitVec 3} (x : Byte) (hr : 3#3 ≤ r)
    (hq : ¬ 4#3 ≤ q) (hp : p ≠ 3#2) :
    decodeBytes (opcodeOf p q r) x = decodeArith (opcodeOf p q r) x := by
  simp [decodeBytes, ne_of_three_le hr, hq, hp]

theorem shiftReg_bit (p : BitVec 2) (f : BitVec 1) (c : BitVec 2) :
    (opcodeOf p (f ++ c) 1#3).extractLsb' 5 1 = f := by
  revert p f c
  decide

theorem shiftCount_bits (p : BitVec 2) (f : BitVec 1) (c : BitVec 2) :
    (opcodeOf p (f ++ c) 1#3).extractLsb' 3 2 = c := by
  revert p f c
  decide

/-- What the decoder reads from the opcode of a shift or rotate: its class by `fP`, and the register and
the count that were encoded. -/
theorem decodeBytes_shift (p : BitVec 2) (r : ShiftReg) {count : Nat} (x : Byte)
    (h : countOk count = true) :
    decodeBytes (shiftOpcode p r count) x =
      if p = 0#2 then .sftr r count else if p = 1#2 then .rotr r count
      else if p = 2#2 then .sftl r count else .rotl r count := by
  have hclass : decodeBytes (shiftOpcode p r count) x = decodeShift (shiftOpcode p r count) := by
    simp [decodeBytes, shiftOpcode]
  rw [hclass]
  simp only [decodeShift, shiftOpcode, shiftReg_bit, shiftCount_bits, fieldP_opcodeOf,
    ShiftReg.ofField_field, countOfField_countField h]

theorem decodeBytes_halt (ign : BitVec 4) : decodeBytes (Instr.halt ign).opcode 0#8 = .halt ign := by
  revert ign
  decide

theorem decodeBytes_nop (ign : BitVec 1) : decodeBytes (Instr.nop ign).opcode 0#8 = .nop ign := by
  revert ign
  decide

theorem decodeBytes_ext1 {op : Byte} (h : isExt1Opcode op = true) : decodeBytes op 0#8 = .ext1 op := by
  revert op
  decide

/-- The decoder reads a well-formed instruction back from its opcode, with any operand byte. -/
theorem decodeBytes_opcode {i : Instr} (hwf : i.wf = true) (x : Byte) :
    decodeBytes i.opcode x = i.withOperand x := by
  cases i with
  | halt ign => rw [decodeBytes_operand, decodeBytes_halt]
  | nop ign => rw [decodeBytes_operand, decodeBytes_nop]
  | ext1 op => rw [decodeBytes_operand, Instr.opcode, decodeBytes_ext1 hwf]
  | sftr r count | rotr r count | sftl r count | rotl r count =>
    exact decodeBytes_shift _ r x hwf
  | set0 bit | set1 bit | skp0 bit | skp1 bit =>
    rw [Instr.opcode, decodeBytes_bit]
    simp [decodeBit, Instr.withOperand]
  | jpd test | jpi test | jmd test | jmi test =>
    rw [Instr.opcode, decodeBytes_jump _ _ test.three_le_fieldR (by decide)]
    simp [decodeJump, Instr.withOperand]
  | or mode | ext2 mode | and mode | lneg mode =>
    rw [Instr.opcode, decodeBytes_logic _ mode.three_le_field (by decide)]
    simp [decodeLogic, Instr.withOperand]
  | add r mode | sub r mode | load r mode | store r mode =>
    rw [Instr.opcode, decodeBytes_arith _ mode.three_le_field (by decide) r.field_ne_three]
    simp [decodeArith, Instr.withOperand]

/-! ## The opcode is read back (R81) -/

/-- Each of the 256 opcodes decodes to a well-formed instruction with that opcode, which has an operand
exactly where the opcode is one of two bytes. -/
theorem decodeBytes_zero_wf_opcode_operands (op : Byte) :
    (decodeBytes op 0#8).wf = true ∧ (decodeBytes op 0#8).opcode = op ∧
      (decodeBytes op 0#8).operands = if opcodeLength op = 1 then [] else [0#8] := by
  revert op
  decide

theorem decodeBytes_wf (op x : Byte) : (decodeBytes op x).wf = true := by
  rw [decodeBytes_operand, Instr.withOperand_wf]
  exact (decodeBytes_zero_wf_opcode_operands op).1

theorem opcode_decodeBytes (op x : Byte) : (decodeBytes op x).opcode = op := by
  rw [decodeBytes_operand, Instr.withOperand_opcode]
  exact (decodeBytes_zero_wf_opcode_operands op).2.1

theorem operands_decodeBytes (op x : Byte) :
    (decodeBytes op x).operands = if opcodeLength op = 1 then [] else [x] := by
  rw [decodeBytes_operand, Instr.withOperand_operands, (decodeBytes_zero_wf_opcode_operands op).2.2]
  split <;> rfl

theorem opcodeLength_one_or_two (op : Byte) : opcodeLength op = 1 ∨ opcodeLength op = 2 := by
  unfold opcodeLength
  split <;> simp

theorem encode_decodeBytes_one {op : Byte} (x : Byte) (h : opcodeLength op = 1) :
    encode (decodeBytes op x) = [op] := by
  simp [encode, opcode_decodeBytes, operands_decodeBytes, h]

theorem encode_decodeBytes_two {op : Byte} (x : Byte) (h : opcodeLength op = 2) :
    encode (decodeBytes op x) = [op, x] := by
  simp [encode, opcode_decodeBytes, operands_decodeBytes, h]

/-- What a list of bytes that decodes is: an opcode of one byte, or one of two bytes and its operand
byte, and the rest. -/
theorem decode_eq_ok {bytes rest : List Byte} {i : Instr} (h : decode bytes = .ok (i, rest)) :
    (∃ op, opcodeLength op = 1 ∧ bytes = op :: rest ∧ i = decodeBytes op 0#8) ∨
    (∃ op x, opcodeLength op = 2 ∧ bytes = op :: x :: rest ∧ i = decodeBytes op x) := by
  cases bytes with
  | nil => simp [decode] at h
  | cons op tail =>
    rcases opcodeLength_one_or_two op with hlen | hlen
    · rw [decode_one op tail hlen] at h
      simp only [Except.ok.injEq, Prod.mk.injEq] at h
      exact .inl ⟨op, hlen, by rw [h.2], h.1.symm⟩
    · cases tail with
      | nil => simp [decode, hlen] at h
      | cons x tail =>
        rw [decode_two op x tail hlen] at h
        simp only [Except.ok.injEq, Prod.mk.injEq] at h
        exact .inr ⟨op, x, hlen, by rw [h.2], h.1.symm⟩

/-! ## The two directions -/

/-- An opcode of one byte decodes without a look at the byte after it. -/
theorem decodeBytes_eq_of_one {op : Byte} (x : Byte) (h : opcodeLength op = 1) :
    decodeBytes op x = decodeBytes op 0#8 := by
  rw [decodeBytes_operand, Instr.withOperand_of_no_operands]
  simp [operands_decodeBytes, h]

/-- What was decoded is decoded again from its encoding. -/
theorem decode_encode_decodeBytes (op x : Byte) (rest : List Byte) :
    decode (encode (decodeBytes op x) ++ rest) = .ok (decodeBytes op x, rest) := by
  rcases opcodeLength_one_or_two op with hlen | hlen
  · rw [encode_decodeBytes_one x hlen, decodeBytes_eq_of_one x hlen]
    exact decode_one op rest hlen
  · rw [encode_decodeBytes_two x hlen]
    exact decode_two op x rest hlen

/-- Settles O1: a well-formed instruction is what its opcode and its operand byte decode to. -/
theorem decodeOfEncodeIsTheInstruction : Obligations.DecodeOfEncodeIsTheInstruction := by
  intro i rest hwf
  obtain ⟨x, hx⟩ := i.exists_withOperand_eq
  have hi : decodeBytes i.opcode x = i := (decodeBytes_opcode hwf x).trans hx
  rw [← hi]
  exact decode_encode_decodeBytes i.opcode x rest

/-- Settles O2: each opcode, with its operand byte where it has one, is the encoding of what it decodes
to. -/
theorem encodeOfDecodeIsTheBytes : Obligations.EncodeOfDecodeIsTheBytes := by
  intro bytes rest i hdecode
  rcases decode_eq_ok hdecode with ⟨op, hlen, rfl, rfl⟩ | ⟨op, x, hlen, rfl, rfl⟩
  · exact ⟨decodeBytes_wf op 0#8, by rw [encode_decodeBytes_one _ hlen]; rfl⟩
  · exact ⟨decodeBytes_wf op x, by rw [encode_decodeBytes_two _ hlen]; rfl⟩

/-- Settles O3: seven closed words, which the decoder computes. -/
theorem wordsDecodeAsTheMapSays : Obligations.WordsDecodeAsTheMapSays := by
  unfold Obligations.WordsDecodeAsTheMapSays
  decide

/-- A step decodes the list of bytes that its fetch reads (R73). -/
theorem decode_fetchBytes (s : Machine.State) : decode s.fetchBytes = .ok (s.fetch, []) := by
  unfold Machine.State.fetchBytes Machine.State.fetch
  dsimp only
  split_ifs with hlen
  · exact decode_one _ _ hlen
  · exact decode_two _ _ _ ((opcodeLength_one_or_two _).resolve_left hlen)

/-- Settles O4: the statement names the bytes that the fetch reads, and the fetch decodes them alike. -/
theorem stepRunsTheDecodedInstruction : Obligations.StepRunsTheDecodedInstruction := by
  intro s i rest hdecode _
  have hpair : (s.fetch, []) = (i, rest) := Except.ok.inj ((decode_fetchBytes s).symm.trans hdecode)
  exact congrArg (Machine.exec · s) (congrArg Prod.fst hpair)

end Sys2Proof
end

section
/-! PROOFS. HALT, and the extension opcodes under each hook, with the system call (spec
40_halt_nop_ext.md, 60_exceptions.md). -/

namespace Sys2Proof.Machine

/-! ## The end of an instruction that asks the outside -/

/-- An instruction whose body ends in `u`, having left the controller's state alone, leaves what `u` has
at the ports and the bytes of `u`, with the deferred advance (R27) added at address 3. -/
theorem exists_next_of_exec_eq_complete {i : Instr} {s u : State} {n : Byte} {keep : Bool}
    (hcurrent : s.CurrentPc) (hexec : exec i s = u.complete n keep) (hbody : s.SameControl u) :
    ∃ t, exec i s = .next t ∧ t.keep = keep ∧ s.SameControl t ∧ t.sent = u.sent ∧
      t.oracle = u.oracle ∧
      ∀ a : Addr, t.memRead a = if a = 3#8 then u.memRead 3#8 + n else u.memRead a := by
  have hcurrent' : u.CurrentPc := (congrArg Params.legacyPc hbody.params).trans hcurrent
  exact ⟨_, hexec.trans (State.complete_of_current hcurrent' n keep), rfl,
    hbody.trans (u.sameControl_end n keep), by simp, by simp, u.memRead_advance n⟩

/-! ## HALT (R101) -/

/-- HALT has no body: it is the end of an instruction of one byte that stops. -/
theorem exec_halt (ign : BitVec 4) (s : State) : exec (.halt ign) s = s.complete 1#8 false := rfl

/-! ## The hook (R103, R165, R203, R210) -/

/-- Either extension opcode is a call of the hook, followed by the advance over its length. -/
theorem exec_of_isExtension {i : Instr} {op n : Byte} (h : IsExtension i op n) (s : State) :
    exec i s = callHook op n s := by
  rcases h with ⟨rfl, rfl⟩ | ⟨mode, opnd, rfl, rfl, rfl⟩ <;> rfl

theorem callHook_of_standalone {s : State} (h : s.params.hook = .standalone) (op n : Byte) :
    callHook op n s = s.complete n true := by
  simp [callHook, h]

theorem callHook_of_other_opcode {s : State} {op : Byte} (h : s.params.hook = .controller)
    (hop : op ≠ s.params.syscallOpcode) (n : Byte) : callHook op n s = s.complete n true := by
  simp [callHook, h, hop]

theorem callHook_of_syscallOpcode {s : State} (h : s.params.hook = .controller) (n : Byte) :
    callHook s.params.syscallOpcode n s = (systemCall s).1.complete n (systemCall s).2 := by
  simp [callHook, h]

theorem callHook_of_ran {s : State} {op : Byte} {writes : Writes} {keep : Bool}
    (h : s.params.hook = .custom) (hanswer : (s.askHook op).1 = .ran writes keep) (n : Byte) :
    callHook op n s = ((s.askHook op).2.memWriteAll writes).complete n keep := by
  simp [callHook, h, hanswer]

theorem callHook_of_reentered {s : State} {op : Byte} (h : s.params.hook = .custom)
    (hanswer : (s.askHook op).1 = .reentered) (n : Byte) :
    callHook op n s = .refused .hookReentered := by
  simp [callHook, h, hanswer]

theorem callHook_of_diverged {s : State} {op : Byte} (h : s.params.hook = .custom)
    (hanswer : (s.askHook op).1 = .diverged) (n : Byte) :
    callHook op n s = .refused .hookDiverged := by
  simp [callHook, h, hanswer]

/-! ## The system call (R211 to R214) -/

theorem exec_of_isSystemCall {i : Instr} {n : Byte} {s : State} (h : IsSystemCall s i n) :
    exec i s = (systemCall s).1.complete n (systemCall s).2 := by
  obtain ⟨hhook, hext⟩ := h
  exact (exec_of_isExtension hext s).trans (callHook_of_syscallOpcode hhook n)

/-- The direction of the system call is bit 7 of A. -/
theorem msb_eq_getLsbD_seven (v : Byte) : v.msb = v.getLsbD 7 := BitVec.msb_eq_getLsbD_last v

theorem systemCall_of_write {s : State} (h : (s.memRead 0#8).getLsbD 7 = true) :
    systemCall s =
      ((s.askCfgWrite s.sysIndex (s.memRead 1#8)).2, (s.askCfgWrite s.sysIndex (s.memRead 1#8)).1) :=
  if_pos ((msb_eq_getLsbD_seven _).trans h)

theorem systemCall_of_read {s : State} (h : (s.memRead 0#8).getLsbD 7 = false) :
    systemCall s = (sysRead s s.sysIndex, true) :=
  if_neg (Bool.eq_false_iff.mp ((msb_eq_getLsbD_seven _).trans h))

theorem sysRead_of_probe (s : State) : sysRead s 0x7F#7 = s.memWrite addrB 0#8 := rfl

theorem sysRead_of_ne_probe (s : State) {idx : BitVec 7} (h : idx ≠ 0x7F#7) :
    sysRead s idx = (s.askCfgRead idx).2.memWrite addrB (s.askCfgRead idx).1 := if_neg h

theorem addrB_ne_addrPC : addrB ≠ addrPC := by decide

/-- A forwarded read stores the answer in B after the request, which leaves memory alone. -/
theorem memRead_sysRead_of_ne_probe (s : State) {idx : BitVec 7} (h : idx ≠ 0x7F#7) (a : Addr) :
    (sysRead s idx).memRead a = if a = 1#8 then (s.askCfgRead idx).1 else s.memRead a := by
  rw [sysRead_of_ne_probe s h, State.memRead_memWrite, (askCfgRead_onlyAsks s idx).memRead]

end Sys2Proof.Machine

namespace Sys2Proof

@[simp] theorem encode_halt (ign : BitVec 4) :
    encode (.halt ign) = [(0#1 ++ ign ++ 0#3 : BitVec 8)] := rfl

open Machine

/-- Settles O7: HALT is the end of an instruction with an empty body, and its result is false. -/
theorem haltAdvancesAndReturnsFalse : Obligations.HaltAdvancesAndReturnsFalse := by
  intro ign s hcurrent
  exact ⟨encode_halt ign,
    runsTo_of_exec_eq_complete hcurrent (exec_halt ign s) (State.SameBesideMemory.refl s)⟩

/-- Settles O9: under the default hook, and under the controller's for another opcode, the call does
nothing, and only the advance is left. -/
theorem extensionsAreNoOpsOfTheirLength : Obligations.ExtensionsAreNoOpsOfTheirLength := by
  intro i op n s hcurrent hext hhook
  have hcall : callHook op n s = s.complete n true := by
    rcases hhook with hstandalone | ⟨hcontroller, hother⟩
    · exact callHook_of_standalone hstandalone op n
    · exact callHook_of_other_opcode hcontroller hother n
  exact runsTo_of_exec_eq_complete hcurrent ((exec_of_isExtension hext s).trans hcall)
    (State.SameBesideMemory.refl s)

/-- Settles O10: a read that is no probe is one request, whose answer is stored in B. -/
theorem systemCallReadPutsTheAnswerInB : Obligations.SystemCallReadPutsTheAnswerInB := by
  intro i n s hcurrent hcall hread hindex
  have hexec : exec i s = (sysRead s s.sysIndex).complete n true := by
    rw [exec_of_isSystemCall hcall, systemCall_of_read hread]
  have hcontrol : s.SameControl (sysRead s s.sysIndex) := by
    rw [sysRead_of_ne_probe s hindex]
    exact (askCfgRead_onlyAsks s s.sysIndex).1.trans (State.sameControl_memWrite _ _ _)
  obtain ⟨t, hnext, hkeep, hsame, hsent, horacle, hmem⟩ :=
    exists_next_of_exec_eq_complete hcurrent hexec hcontrol
  refine ⟨t, hnext, hkeep, hsame, ?_, ?_, fun a => ?_⟩
  · rw [hsent, sysRead_of_ne_probe s hindex, State.memWrite_sent, askCfgRead_sent]
  · rw [horacle, sysRead_of_ne_probe s hindex, State.memWrite_oracle]
  · simpa only [memRead_sysRead_of_ne_probe s hindex, if_neg addrB_ne_addrPC.symm] using hmem a

/-- Settles O11: the probe is a store of 0 to B with no request; under the default hook the call does
nothing; and the index 0x7F of a write makes no difference to it. -/
theorem capabilityProbeClearsB : Obligations.CapabilityProbeClearsB := by
  intro i n s hcurrent hext
  refine ⟨fun hhook hprobe => ?_, fun hhook => ?_, fun hhook hwrite => ?_⟩
  · have hexec : exec i s = (s.memWrite addrB 0#8).complete n true := by
      have hread : (s.memRead 0#8).getLsbD 7 = false := by rw [hprobe]; rfl
      have hindex : s.sysIndex = 0x7F#7 := by rw [State.sysIndex, hprobe]; rfl
      rw [exec_of_isSystemCall ⟨hhook, hext⟩, systemCall_of_read hread, hindex, sysRead_of_probe]
    exact runsTo_of_exec_eq_store hcurrent addrB_ne_addrPC hexec
  · exact runsTo_of_exec_eq_complete hcurrent
      ((exec_of_isExtension hext s).trans (callHook_of_standalone hhook _ n)) (.refl s)
  · have hindex : s.sysIndex = 0x7F#7 := by rw [State.sysIndex, hwrite]; rfl
    have hexec := exec_of_isSystemCall (i := i) (n := n) ⟨hhook, hext⟩
    rw [systemCall_of_write (by rw [hwrite]; rfl), hindex] at hexec
    obtain ⟨t, hnext, hkeep, -, hsent, -, -⟩ :=
      exists_next_of_exec_eq_complete hcurrent hexec (askCfgWrite_onlyAsks s _ _).1
    exact ⟨t, hnext, hsent.trans (askCfgWrite_sent s _ _), hkeep⟩

/-- Settles O12: a write is one request, whose answer is the result. -/
theorem systemCallWriteReturnsTheStoresAnswer :
    Obligations.SystemCallWriteReturnsTheStoresAnswer := by
  intro i n s hcurrent hcall hwrite
  have hasks := askCfgWrite_onlyAsks s s.sysIndex (s.memRead 1#8)
  have hexec := exec_of_isSystemCall hcall
  rw [systemCall_of_write hwrite] at hexec
  obtain ⟨t, hnext, hkeep, hsame, hsent, horacle, hmem⟩ :=
    exists_next_of_exec_eq_complete hcurrent hexec hasks.1
  exact ⟨t, hnext, hsame, hkeep, hsent.trans (askCfgWrite_sent s _ _), horacle,
    fun a => by simpa only [hasks.memRead] using hmem a⟩

/-- Settles O13: a hook of which nothing is known is one call, whose writes land before the advance
reads address 3; an answer without meaning refuses. -/
theorem hookCallIsFollowedByTheAdvance : Obligations.HookCallIsFollowedByTheAdvance := by
  intro i op n s hcurrent hext hhook
  have hcall := exec_of_isExtension hext s
  refine ⟨fun writes keep hran => ?_, fun hreentered => ?_, fun hdiverged => ?_⟩
  · have hasks := askHook_onlyAsks s op
    have hwrites : ∀ a : Addr, ((s.askHook op).2.memWriteAll writes).memRead a =
        (s.memWriteAll writes).memRead a :=
      State.memRead_of_mem (congrArg (Memory.writeAll · writes) hasks.2.1)
    obtain ⟨t, hnext, hkeep, hsame, hsent, horacle, hmem⟩ :=
      exists_next_of_exec_eq_complete hcurrent (hcall.trans (callHook_of_ran hhook hran n))
        (hasks.1.trans (State.sameControl_memWriteAll _ writes))
    exact ⟨t, hnext, hkeep, hsame, hsent.trans (askHook_sent s op), horacle,
      fun a => by simpa only [hwrites] using hmem a⟩
  · exact hcall.trans (callHook_of_reentered hhook hreentered n)
  · exact hcall.trans (callHook_of_diverged hhook hdiverged n)

end Sys2Proof
end

section
/-! PROOFS. The repeated one-bit shifts and rotates in closed form, and the four instructions (spec
41_shift_rotate.md). -/

namespace Sys2Proof.Machine

/-! ## Repetition in closed form (R112 to R116) -/

theorem iterate_shl1 (count : Nat) (v : Byte) : iterate shl1 count v = v <<< count := by
  induction count generalizing v with
  | zero => exact (BitVec.shiftLeft_zero v).symm
  | succ n ih => rw [iterate, ih, shl1, ← BitVec.shiftLeft_add, Nat.add_comm]

/-- The one-bit shift that keeps the sign is the arithmetic shift of the library. -/
theorem asr1_msb (v : Byte) : asr1 v.msb v = v.sshiftRight 1 := by
  revert v
  decide

/-- The sign that every round fills in is the one the instruction started with (R115). -/
theorem iterate_asr1 (count : Nat) (v : Byte) : iterate (asr1 v.msb) count v = v.sshiftRight count := by
  induction count generalizing v with
  | zero => exact BitVec.sshiftRight_zero.symm
  | succ n ih =>
    have hround := ih (v.sshiftRight 1)
    rw [BitVec.msb_sshiftRight] at hround
    rw [iterate, asr1_msb, hround, ← BitVec.sshiftRight_add, Nat.add_comm]

/-- An arithmetic shift by `count` is floor division of the signed value by `2^count`. -/
theorem sshiftRight_eq_ofInt (v : Byte) (count : Nat) :
    v.sshiftRight count = BitVec.ofInt 8 (v.toInt / 2 ^ count) := by
  have hvalue : (v.sshiftRight count).toInt = v.toInt / 2 ^ count := by
    rw [BitVec.toInt_sshiftRight, Int.shiftRight_eq_div_pow]
    norm_cast
  rw [← hvalue, BitVec.ofInt_toInt]

theorem rol1_eq_rotateLeft (v : Byte) : rol1 v = v.rotateLeft 1 := rfl

theorem ror1_eq_rotateRight (v : Byte) : ror1 v = v.rotateRight 1 := by
  revert v
  decide

theorem rotateLeft_rotateLeft (v : Byte) (m n : Nat) :
    (v.rotateLeft m).rotateLeft n = v.rotateLeft (m + n) := by
  apply BitVec.eq_of_getMsbD_eq
  intro i hi
  have hround : (n + i) % 8 < 8 := Nat.mod_lt _ (by decide)
  have hplace : (m + (n + i) % 8) % 8 = (m + n + i) % 8 := by omega
  simp [BitVec.getMsbD_rotateLeft, hi, hround, hplace]

/-- A rotate right is the rotate left by the rest of the byte. -/
theorem rotateRight_eq_rotateLeft (v : Byte) (m : Nat) :
    v.rotateRight m = v.rotateLeft (8 - m % 8) := by
  apply BitVec.eq_of_getMsbD_eq
  intro i hi
  rw [BitVec.getMsbD_rotateRight, BitVec.getMsbD_rotateLeft]
  split_ifs with hwrap
  · rw [show (8 - m % 8 + i) % 8 = (8 + i - m % 8) % 8 by omega]
  · rw [show (8 - m % 8 + i) % 8 = i - m % 8 by omega]

theorem rotateRight_rotateRight (v : Byte) (m n : Nat) :
    (v.rotateRight m).rotateRight n = v.rotateRight (m + n) := by
  simp only [rotateRight_eq_rotateLeft, rotateLeft_rotateLeft]
  rw [← BitVec.rotateLeft_mod_eq_rotateLeft, ← BitVec.rotateLeft_mod_eq_rotateLeft (r := _ - _)]
  congr 1
  omega

theorem iterate_rol1 (count : Nat) (v : Byte) : iterate rol1 count v = v.rotateLeft count := by
  induction count generalizing v with
  | zero => simp [iterate, BitVec.rotateLeft_def, BitVec.ushiftRight_eq_zero]
  | succ n ih => rw [iterate, ih, rol1_eq_rotateLeft, rotateLeft_rotateLeft, Nat.add_comm]

theorem iterate_ror1 (count : Nat) (v : Byte) : iterate ror1 count v = v.rotateRight count := by
  induction count generalizing v with
  | zero => simp [iterate, BitVec.rotateRight_def]
  | succ n ih => rw [iterate, ih, ror1_eq_rotateRight, rotateRight_rotateRight, Nat.add_comm]

/-- The closed form of R114, for a count below the width. -/
theorem rotateLeft_eq_or {count : Nat} (h : count < 8) (v : Byte) :
    v.rotateLeft count = v <<< count ||| v >>> (8 - count) := by
  rw [BitVec.rotateLeft_def, Nat.mod_eq_of_lt h]

/-- The closed form of R116, for a count below the width. -/
theorem rotateRight_eq_or {count : Nat} (h : count < 8) (v : Byte) :
    v.rotateRight count = v >>> count ||| v <<< (8 - count) := by
  rw [BitVec.rotateRight_def, Nat.mod_eq_of_lt h]

/-! ## What the two shift modes compute (R113 to R119) -/

theorem shiftLeft_eq (count : Nat) (v : Byte) : shiftLeft count v = v <<< count := iterate_shl1 count v

theorem shiftRight_corrected (count : Nat) (v : Byte) :
    shiftRight false count v = BitVec.ofInt 8 (v.toInt / 2 ^ count) :=
  (iterate_asr1 count v).trans (sshiftRight_eq_ofInt v count)

theorem shiftRight_legacy (count : Nat) (v : Byte) : shiftRight true count v = v >>> count := rfl

theorem rotateLeft_corrected {count : Nat} (h : count < 8) (v : Byte) :
    rotateLeft false count v = v <<< count ||| v >>> (8 - count) :=
  (iterate_rol1 count v).trans (rotateLeft_eq_or h v)

theorem rotateRight_corrected {count : Nat} (h : count < 8) (v : Byte) :
    rotateRight false count v = v >>> count ||| v <<< (8 - count) :=
  (iterate_ror1 count v).trans (rotateRight_eq_or h v)

/-- By 1 the legacy mode rotates as the corrected one, and by more it gives the free value. -/
theorem rotateLeft_legacy {count : Nat} (h : 1 ≤ count) (v : Byte) :
    rotateLeft true count v =
      if count = 1 then v <<< 1 ||| v >>> 7 else Config.legacyRot true v count := by
  by_cases hone : count = 1
  · subst hone
    exact rotateLeft_corrected (by decide) v
  · have hmore : 1 < count := by omega
    simp [rotateLeft, hmore, hone]

theorem rotateRight_legacy {count : Nat} (h : 1 ≤ count) (v : Byte) :
    rotateRight true count v =
      if count = 1 then v >>> 1 ||| v <<< 7 else Config.legacyRot false v count := by
  by_cases hone : count = 1
  · subst hone
    exact rotateRight_corrected (by decide) v
  · have hmore : 1 < count := by omega
    simp [rotateRight, hmore, hone]

/-! ## The common frame, for `RunsTo` (R111) -/

theorem ShiftReg.addr_ne_addrPC (r : ShiftReg) : ShiftReg.addr r ≠ addrPC := by
  cases r <;> decide

/-- A shift or rotate by the function `f` changes its register by it, and advances by 1. -/
theorem runsTo_of_exec_eq_shiftWith {i : Instr} {s : State} {r : ShiftReg} {f : Byte → Byte}
    (hcurrent : s.CurrentPc) (hexec : exec i s = shiftWith r f s) :
    RunsTo i s true fun a => if a = 3#8 then s.memRead 3#8 + 1#8
      else if a = ShiftReg.addr r then f (s.memRead a) else s.memRead a := by
  have hruns := runsTo_of_exec_eq_store hcurrent (ShiftReg.addr_ne_addrPC r) hexec
  have hread : ∀ a : Addr, (if a = ShiftReg.addr r then f (s.memRead (ShiftReg.addr r))
      else s.memRead a) = if a = ShiftReg.addr r then f (s.memRead a) else s.memRead a := by
    intro a
    split_ifs with ha
    · rw [ha]
    · rfl
  simpa only [hread] using hruns

theorem exec_sftl (r : ShiftReg) (count : Nat) (s : State) :
    exec (.sftl r count) s = shiftWith r (shiftLeft count) s := rfl

theorem exec_rotl (r : ShiftReg) (count : Nat) (s : State) :
    exec (.rotl r count) s = shiftWith r (rotateLeft s.params.legacyShift count) s := rfl

theorem exec_sftr (r : ShiftReg) (count : Nat) (s : State) :
    exec (.sftr r count) s = shiftWith r (shiftRight s.params.legacyShift count) s := rfl

theorem exec_rotr (r : ShiftReg) (count : Nat) (s : State) :
    exec (.rotr r count) s = shiftWith r (rotateRight s.params.legacyShift count) s := rfl

/-- One ROTL in the corrected mode, as it is used in a sequence. -/
theorem exists_next_rotl (r : ShiftReg) (count : Nat) {s : State} (hcurrent : s.CurrentPc)
    (hshift : s.params.legacyShift = false) :
    ∃ t, exec (.rotl r count) s = .next t ∧ t.CurrentPc ∧ t.params.legacyShift = false ∧
      t.memRead (ShiftReg.addr r) = (s.memRead (ShiftReg.addr r)).rotateLeft count ∧
      t.memRead 3#8 = s.memRead 3#8 + 1#8 := by
  obtain ⟨t, hnext, -, ⟨hcontrol, -⟩, hmem⟩ :=
    runsTo_of_exec_eq_shiftWith hcurrent (exec_rotl r count s)
  refine ⟨t, hnext, ?_, ?_, ?_, ?_⟩
  · exact (congrArg Params.legacyPc hcontrol.params).trans hcurrent
  · exact (congrArg Params.legacyShift hcontrol.params).trans hshift
  · have hread := hmem (ShiftReg.addr r)
    simp only [if_neg (ShiftReg.addr_ne_addrPC r), reduceIte, hshift] at hread
    exact hread.trans (iterate_rol1 count _)
  · exact (hmem 3#8).trans (if_pos rfl)

/-! ## Encodings (R85) -/

/-- The opcode of a shift, with its fields side by side. -/
theorem shiftOpcode_eq_append (p : BitVec 2) (r : ShiftReg) (count : Nat) :
    shiftOpcode p r count = (p ++ r.field ++ BitVec.ofNat 2 count ++ 1#3 : BitVec 8) := by
  unfold shiftOpcode opcodeOf countField
  generalize r.field = f
  generalize BitVec.ofNat 2 count = c
  revert p f c
  decide

end Sys2Proof.Machine

namespace Sys2Proof
open Machine

/-- Settles O14: SFTL is a shift by `shiftLeft`, which looks at no mode. -/
theorem shiftLeftFillsWithZeros : Obligations.ShiftLeftFillsWithZeros := by
  intro r count s hcurrent _ _
  refine ⟨congrArg (List.cons · []) (shiftOpcode_eq_append 2#2 r count), ?_⟩
  simpa only [shiftLeft_eq] using runsTo_of_exec_eq_shiftWith hcurrent (exec_sftl r count s)

/-- Settles O15: ROTL is a shift by `rotateLeft`, in the corrected mode. -/
theorem rotateLeftIsEightBit : Obligations.RotateLeftIsEightBit := by
  intro r count s hcurrent hshift _ hhigh
  refine ⟨congrArg (List.cons · []) (shiftOpcode_eq_append 3#2 r count), ?_⟩
  simpa only [hshift, rotateLeft_corrected (Nat.lt_of_le_of_lt hhigh (by decide))] using
    runsTo_of_exec_eq_shiftWith hcurrent (exec_rotl r count s)

/-- Settles O16: SFTR is a shift by `shiftRight`, in the corrected mode. -/
theorem shiftRightDividesTheSignedValue : Obligations.ShiftRightDividesTheSignedValue := by
  intro r count s hcurrent hshift _ _
  refine ⟨congrArg (List.cons · []) (shiftOpcode_eq_append 0#2 r count), ?_⟩
  simpa only [hshift, shiftRight_corrected] using
    runsTo_of_exec_eq_shiftWith hcurrent (exec_sftr r count s)

/-- Settles O17: ROTR is a shift by `rotateRight`, in the corrected mode. -/
theorem rotateRightIsEightBit : Obligations.RotateRightIsEightBit := by
  intro r count s hcurrent hshift _ hhigh
  refine ⟨congrArg (List.cons · []) (shiftOpcode_eq_append 1#2 r count), ?_⟩
  simpa only [hshift, rotateRight_corrected (Nat.lt_of_le_of_lt hhigh (by decide))] using
    runsTo_of_exec_eq_shiftWith hcurrent (exec_rotr r count s)

/-- Settles O18: the four shifts, each by its function in the legacy mode. -/
theorem legacyShiftZeroFillsAndLeavesRotatesOpen :
    Obligations.LegacyShiftZeroFillsAndLeavesRotatesOpen := by
  intro r count s hcurrent hshift hlow _
  refine ⟨?_, ?_, ?_, ?_⟩
  · simpa only [hshift, shiftRight_legacy] using
      runsTo_of_exec_eq_shiftWith hcurrent (exec_sftr r count s)
  · simpa only [shiftLeft_eq] using runsTo_of_exec_eq_shiftWith hcurrent (exec_sftl r count s)
  · simpa only [hshift, rotateLeft_legacy hlow] using
      runsTo_of_exec_eq_shiftWith hcurrent (exec_rotl r count s)
  · simpa only [hshift, rotateRight_legacy hlow] using
      runsTo_of_exec_eq_shiftWith hcurrent (exec_rotr r count s)

/-- Settles O19: rotates left add up, and so do the advances of the program counter. -/
theorem fourRotatesByOneAreOneByFour : Obligations.FourRotatesByOneAreOneByFour := by
  intro r s hcurrent hshift
  obtain ⟨s1, hnext1, hcurrent1, hshift1, hreg1, hpc1⟩ := exists_next_rotl r 1 hcurrent hshift
  obtain ⟨s2, hnext2, hcurrent2, hshift2, hreg2, hpc2⟩ := exists_next_rotl r 1 hcurrent1 hshift1
  obtain ⟨s3, hnext3, hcurrent3, hshift3, hreg3, hpc3⟩ := exists_next_rotl r 1 hcurrent2 hshift2
  obtain ⟨t, hnext4, -, -, hreg4, hpc4⟩ := exists_next_rotl r 1 hcurrent3 hshift3
  obtain ⟨u, hnext, -, -, hreg, hpc⟩ := exists_next_rotl r 4 hcurrent hshift
  refine ⟨t, u, ?_, hnext, ?_, ?_⟩
  · simp only [hnext1, hnext2, hnext3, hnext4, andThen_next]
  · simp only [hreg4, hreg3, hreg2, hreg1, hreg, rotateLeft_rotateLeft]
  · simp only [hpc4, hpc3, hpc2, hpc1, hpc, BitVec.add_assoc]
    rfl

end Sys2Proof
end

section
/-! PROOFS. SET0 and SET1, and the skips after them (spec 42_bit_ops.md), and the return through a mark
cell (43_jumps.md R153). -/

namespace Sys2Proof.Machine

/-! ## One byte changed in place (R126 to R128) -/

theorem exec_set0 (bit : BitVec 3) (opnd : Byte) (s : State) :
    exec (.set0 bit opnd) s =
      (s.memWrite opnd (s.memRead opnd &&& ~~~ bitMask bit)).complete 2#8 true := rfl

theorem exec_set1 (bit : BitVec 3) (opnd : Byte) (s : State) :
    exec (.set1 bit opnd) s =
      (s.memWrite opnd (s.memRead opnd ||| bitMask bit)).complete 2#8 true := rfl

/-- An instruction that stores one byte, to any address, and advances by 2: the advance reads what was
stored to address 3 (R27). -/
theorem exists_next_of_exec_eq_store {i : Instr} {s : State} {dest : Addr} {v : Byte}
    (hcurrent : s.CurrentPc) (hexec : exec i s = (s.memWrite dest v).complete 2#8 true) :
    ∃ t, exec i s = .next t ∧ t.keep = true ∧ s.SameBesideMemory t ∧
      (dest ≠ 3#8 → t.memRead 3#8 = s.memRead 3#8 + 2#8 ∧ t.memRead dest = v) ∧
      (dest = 3#8 → t.memRead 3#8 = v + 2#8) ∧
      ∀ a : Addr, a ≠ 3#8 → a ≠ dest → t.memRead a = s.memRead a := by
  obtain ⟨t, hnext, hkeep, hsame, hmem⟩ :=
    runsTo_of_exec_eq_complete hcurrent hexec (s.sameBesideMemory_memWrite dest v)
  refine ⟨t, hnext, hkeep, hsame, fun hdest => ⟨?_, ?_⟩, fun hdest => ?_, fun a hpc ha => ?_⟩
  · simp [hmem, hdest.symm]
  · simp [hmem, hdest]
  · simp [hmem, hdest]
  · simp [hmem, hpc, ha]

theorem getLsbD_bitMask (bit : BitVec 3) (k : Nat) :
    (bitMask bit).getLsbD k = decide (k = bit.toNat) := by
  have hbit : bit.toNat < 8 := bit.isLt
  rw [bitMask_eq_twoPow, BitVec.getLsbD_twoPow]
  simp [hbit, eq_comm]

theorem getLsbD_clear (bit : BitVec 3) (v : Byte) {k : Nat} (hk : k < 8) :
    (v &&& ~~~ bitMask bit).getLsbD k = if k = bit.toNat then false else v.getLsbD k := by
  rw [BitVec.getLsbD_and, BitVec.getLsbD_not, getLsbD_bitMask]
  split_ifs with h
  · simp [h]
  · simp [h, hk]

theorem getLsbD_set (bit : BitVec 3) (v : Byte) (k : Nat) :
    (v ||| bitMask bit).getLsbD k = if k = bit.toNat then true else v.getLsbD k := by
  rw [BitVec.getLsbD_or, getLsbD_bitMask]
  split_ifs with h <;> simp [h]

end Sys2Proof.Machine

namespace Sys2Proof

@[simp] theorem encode_set0 (bit : BitVec 3) (opnd : Byte) :
    encode (.set0 bit opnd) = [(0#2 ++ bit ++ 2#3 : BitVec 8), opnd] := rfl

@[simp] theorem encode_set1 (bit : BitVec 3) (opnd : Byte) :
    encode (.set1 bit opnd) = [(1#2 ++ bit ++ 2#3 : BitVec 8), opnd] := rfl

open Machine

/-- Settles O20: SET0 stores one byte, the old one with the bit of the mask cleared. -/
theorem set0ClearsTheBit : Obligations.Set0ClearsTheBit := by
  intro bit opnd s hcurrent
  obtain ⟨t, hnext, hkeep, hsame, hother, hthree, hframe⟩ :=
    exists_next_of_exec_eq_store hcurrent (exec_set0 bit opnd s)
  refine ⟨encode_set0 bit opnd, t, hnext, hkeep, hsame, fun hopnd => ?_, ?_, hframe⟩
  · obtain ⟨hpc, hbyte⟩ := hother hopnd
    exact ⟨hpc, fun k hk => hbyte ▸ getLsbD_clear bit _ hk⟩
  · rintro rfl
    exact hthree rfl

/-- Settles O21: SET1 stores one byte, the old one with the bit of the mask set. -/
theorem set1SetsTheBit : Obligations.Set1SetsTheBit := by
  intro bit opnd s hcurrent
  obtain ⟨t, hnext, hkeep, hsame, hother, hthree, hframe⟩ :=
    exists_next_of_exec_eq_store hcurrent (exec_set1 bit opnd s)
  refine ⟨encode_set1 bit opnd, t, hnext, hkeep, hsame, fun hopnd => ?_, ?_, hframe⟩
  · obtain ⟨hpc, hbyte⟩ := hother hopnd
    exact ⟨hpc, fun k _ => hbyte ▸ getLsbD_set bit _ k⟩
  · rintro rfl
    exact hthree rfl

/-- The two skips on a bit whose value is known go by opposite lengths. -/
theorem exists_next_skips (bit : BitVec 3) (opnd : Byte) {s : State} {value : Bool}
    (hcurrent : s.CurrentPc) (hbit : (s.memRead opnd).getLsbD bit.toNat = value) :
    (∃ v, exec (.skp0 bit opnd) s = .next v ∧
      v.memRead 3#8 = s.memRead 3#8 + if value then 2#8 else 4#8) ∧
    (∃ v, exec (.skp1 bit opnd) s = .next v ∧
      v.memRead 3#8 = s.memRead 3#8 + if value then 4#8 else 2#8) := by
  obtain ⟨v, hnext, -, -, hmem⟩ := (skp0SkipsWhenTheBitIsZero bit opnd s hcurrent).2
  obtain ⟨w, hnext', -, -, hmem'⟩ := (skp1SkipsWhenTheBitIsOne bit opnd s hcurrent).2
  exact ⟨⟨v, hnext, by simp [hmem, hbit]⟩, ⟨w, hnext', by simp [hmem', hbit]⟩⟩

/-- Settles O24: SET1 and SET0 leave the bit at the value that the skips then find. -/
theorem setThenSkipAgree : Obligations.SetThenSkipAgree := by
  intro bit opnd s hcurrent hopnd
  have hpc : ∀ {t : State}, s.SameBesideMemory t → t.CurrentPc := fun hsame =>
    (congrArg Params.legacyPc hsame.1.params).trans hcurrent
  obtain ⟨-, t, hset, -, hsame, hother, -, -⟩ := set1SetsTheBit bit opnd s hcurrent
  obtain ⟨-, u, hclear, -, hsame', hother', -, -⟩ := set0ClearsTheBit bit opnd s hcurrent
  have hone := ((hother hopnd).2 _ bit.isLt).trans (if_pos rfl)
  have hzero := ((hother' hopnd).2 _ bit.isLt).trans (if_pos rfl)
  obtain ⟨hskp0, hskp1⟩ := exists_next_skips bit opnd (hpc hsame) hone
  obtain ⟨hskp0', hskp1'⟩ := exists_next_skips bit opnd (hpc hsame') hzero
  exact ⟨t, u, hset, hclear, hskp0, hskp1, hskp0', hskp1'⟩

/-- Settles O29: the jump-and-mark leaves the return address in the cell, and the jump indirect goes to
what the cell holds. -/
theorem returnThroughTheMarkCell : Obligations.ReturnThroughTheMarkCell := by
  intro test k m s hcurrent hm hholds
  obtain ⟨t, hcall, -, ⟨hcontrol, -⟩, hmark⟩ :=
    (jumpAndMarkDirectStoresTheReturnAddress test m s hcurrent).2.1 hholds
  have hcurrent' : t.CurrentPc := (congrArg Params.legacyPc hcontrol.params).trans hcurrent
  obtain ⟨u, hreturn, -, -, hpc⟩ :=
    (jumpIndirectGoesThroughTheOperand (.always k) m t hcurrent').2.1 trivial
  refine ⟨t, u, hcall, hreturn, ?_⟩
  calc u.memRead 3#8 = t.memRead m := (hpc 3#8).trans (if_pos rfl)
    _ = s.memRead 3#8 + 2#8 := by simp [hmark, hm]

end Sys2Proof
end

section
/-! PROOFS. SUB, LOAD and STORE, the overflow flag as a rule on sign bits, and the operand locations
(spec 30_encoding.md R76, 45_arith_load_store.md). -/

namespace Sys2Proof.Machine

/-! ## SUB (R179) -/

theorem subFlags_eq_or (x v : Byte) :
    subFlags x v = (if x.toNat < v.toNat then 2#8 else 0#8) |||
      (if 127 < x.toInt - v.toInt ∨ x.toInt - v.toInt < -128 then 1#8 else 0#8) := by
  simp only [subFlags, flagsByte_eq_or, subBorrow, subOverflow, outOfSigned, decide_eq_true_eq]

/-- `x -8 v` is the difference of the unsigned values modulo 256. -/
theorem sub_eq_ofInt (x v : Byte) : x - v = BitVec.ofInt 8 ((x.toNat : Int) - v.toNat) := by
  rw [Int.sub_eq_add_neg, BitVec.ofInt_add, BitVec.ofInt_neg, BitVec.ofInt_natCast,
    BitVec.ofInt_natCast, BitVec.ofNat_toNat, BitVec.ofNat_toNat, BitVec.setWidth_eq,
    BitVec.setWidth_eq, BitVec.sub_eq_add_neg]

/-- Both operands are read before either store. -/
theorem exec_sub (r : Reg) (mode : AddrMode) (opnd : Byte) (s : State) :
    exec (.sub r mode opnd) s =
      resultWithFlags r (s.memRead (Reg.addr r) - s.memRead (ea s mode opnd))
        (subFlags (s.memRead (Reg.addr r)) (s.memRead (ea s mode opnd))) s := rfl

/-! ## LOAD and STORE (R180, R181) -/

theorem exec_load (r : Reg) (mode : AddrMode) (opnd : Byte) (s : State) :
    exec (.load r mode opnd) s =
      (s.memWrite (Reg.addr r) (s.memRead (ea s mode opnd))).complete 2#8 true := rfl

theorem exec_store (r : Reg) (mode : AddrMode) (opnd : Byte) (s : State) :
    exec (.store r mode opnd) s =
      (s.memWrite (ea s mode opnd) (s.memRead (Reg.addr r))).complete 2#8 true := rfl

/-! ## Overflow (R178, R179) -/

/-- The overflow of ADD is the library's for signed bit vectors. -/
theorem addOverflow_eq_saddOverflow (a v : Byte) : addOverflow a v = BitVec.saddOverflow a v := by
  simp only [addOverflow, outOfSigned, BitVec.saddOverflow, Bool.decide_or]
  congr 1

theorem subOverflow_eq_ssubOverflow (a v : Byte) : subOverflow a v = BitVec.ssubOverflow a v := by
  simp only [subOverflow, outOfSigned, BitVec.ssubOverflow, Bool.decide_or]
  congr 1

end Sys2Proof.Machine

namespace Sys2Proof

@[simp] theorem encode_sub (r : Reg) (mode : AddrMode) (opnd : Byte) :
    encode (.sub r mode opnd) = [(r.field ++ 1#3 ++ mode.field : BitVec 8), opnd] := rfl

@[simp] theorem encode_load (r : Reg) (mode : AddrMode) (opnd : Byte) :
    encode (.load r mode opnd) = [(r.field ++ 2#3 ++ mode.field : BitVec 8), opnd] := rfl

@[simp] theorem encode_store (r : Reg) (mode : AddrMode) (opnd : Byte) :
    encode (.store r mode opnd) = [(r.field ++ 3#3 ++ mode.field : BitVec 8), opnd] := rfl

open Machine

/-- Settles O30: one equation for each mode of the definition. -/
theorem effectiveAddresses : Obligations.EffectiveAddresses :=
  fun _ _ => ⟨rfl, rfl, rfl, rfl, rfl⟩

/-- Settles O35: SUB writes a result and its flags byte, the difference modulo 256, the borrow and the
overflow. -/
theorem subWritesDifferenceAndFlags : Obligations.SubWritesDifferenceAndFlags := by
  intro r mode opnd s hcurrent
  have hexec := exec_sub r mode opnd s
  rw [subFlags_eq_or, sub_eq_ofInt] at hexec
  exact ⟨encode_sub r mode opnd, runsTo_of_exec_eq_resultWithFlags hcurrent hexec⟩

/-- Settles O36: the two overflows are the library's, whose sign rules hold at every width. -/
theorem overflowIsASignRule : Obligations.OverflowIsASignRule := by
  intro a v
  rw [addOverflow_eq_saddOverflow, subOverflow_eq_ssubOverflow, BitVec.saddOverflow_eq,
    BitVec.ssubOverflow_eq]
  refine ⟨rfl, ?_⟩
  cases a.msb <;> cases v.msb <;> simp

/-- Settles O37: LOAD stores one byte, the operand, to its register. -/
theorem loadCopiesTheOperand : Obligations.LoadCopiesTheOperand := by
  intro r mode opnd s hcurrent
  exact ⟨encode_load r mode opnd,
    runsTo_of_exec_eq_store hcurrent (Reg.addr_ne_addrPC r) (exec_load r mode opnd s)⟩

/-- Settles O38: STORE stores one byte, its register, to the operand location, before the advance reads
address 3. -/
theorem storeWritesTheOperandLocation : Obligations.StoreWritesTheOperandLocation := by
  intro r mode opnd s hcurrent
  refine ⟨encode_store r mode opnd, ?_⟩
  simpa only [State.memRead_memWrite, eq_comm (a := 3#8)] using
    runsTo_of_exec_eq_complete hcurrent (exec_store r mode opnd s) (s.sameBesideMemory_memWrite _ _)

end Sys2Proof
end

section
/-! PROOFS. What every instruction keeps and what it can change, from what any instruction can do
(`exec_cases`), and the sources of a false result (spec 10_state.md, 60_exceptions.md section 2). -/

namespace Sys2Proof.Machine

/-! ## Completion and refusal (R10, R81, R201) -/

theorem exec_completes (i : Instr) {s : State} (hcurrent : s.CurrentPc) (hhook : s.KnownHook) :
    Completes (exec i s) := by
  rcases exec_cases i s with ⟨u, n, keep, hexec, hcontrol, -, -⟩ | ⟨hcustom, -⟩
  · have hcurrent' : u.CurrentPc := (congrArg Params.legacyPc hcontrol.params).trans hcurrent
    exact ⟨_, hexec.trans (State.complete_of_current hcurrent' n keep)⟩
  · exact absurd hcustom hhook

theorem exec_refused_of_legacyPc (i : Instr) {s : State} (h : s.params.legacyPc = true) :
    ∃ r, exec i s = .refused r := by
  rcases exec_cases i s with ⟨u, n, keep, hexec, hcontrol, -, -⟩ | ⟨-, hrefused⟩
  · have h' : u.params.legacyPc = true := (congrArg Params.legacyPc hcontrol.params).trans h
    exact ⟨_, hexec.trans (State.complete_of_legacy h' n keep)⟩
  · exact hrefused

/-! ## The next state of any instruction -/

/-- The next state of an instruction is that of a body that leaves the controller's state alone, keeps
memory canonical and, under a known hook, keeps to its frame; with the advance and the result. -/
theorem exists_body_of_exec_eq_next {i : Instr} {s t : State} (h : exec i s = .next t) :
    ∃ u n keep, t = (u.advance n).withKeep keep ∧ s.SameControl u ∧
      (s.KnownHook → ∀ a : Addr, a ≠ addrPC → a ∉ destinations i → storeAddress s i ≠ some a →
        u.memRead a = s.memRead a) ∧
      (Memory.wf s.mem = true → Memory.wf u.mem = true) := by
  rcases exec_cases i s with ⟨u, n, keep, hexec, hrest⟩ | ⟨-, r, hexec⟩
  · exact ⟨u, n, keep, (State.complete_eq_next.mp (hexec.symm.trans h)).2, hrest⟩
  · exact absurd (hexec.symm.trans h) nofun

theorem exec_sameControl {i : Instr} {s t : State} (h : exec i s = .next t) : s.SameControl t := by
  obtain ⟨u, n, keep, rfl, hcontrol, -, -⟩ := exists_body_of_exec_eq_next h
  exact hcontrol.trans (u.sameControl_end n keep)

theorem exec_wf_mem {i : Instr} {s t : State} (h : exec i s = .next t)
    (hwf : Memory.wf s.mem = true) : Memory.wf t.mem = true := by
  obtain ⟨u, n, keep, rfl, -, -, hmem⟩ := exists_body_of_exec_eq_next h
  exact State.wf_memWrite u addrPC _ (hmem hwf)

theorem exec_memRead_of_frame {i : Instr} {s t : State} (h : exec i s = .next t)
    (hhook : s.KnownHook) {a : Addr} (hpc : a ≠ 3#8) (hdest : a ∉ destinations i)
    (hstore : storeAddress s i ≠ some a) : t.memRead a = s.memRead a := by
  obtain ⟨u, n, keep, rfl, -, hframe, -⟩ := exists_body_of_exec_eq_next h
  rw [State.memRead_withKeep, State.memRead_advance, if_neg hpc]
  exact hframe hhook a hpc hdest hstore

/-! ## Which destinations are flags bytes (R30, R176) -/

theorem Reg.flagsAddr_ne_addr_any (r r' : Reg) : Reg.flagsAddr r ≠ Reg.addr r' := by
  cases r <;> cases r' <;> decide

theorem Reg.flagsAddr_ne_shiftReg_addr (r : Reg) (r' : ShiftReg) :
    Reg.flagsAddr r ≠ ShiftReg.addr r' := by
  cases r <;> cases r' <;> decide

theorem Reg.flagsAddr_ne_addrA (r : Reg) : Reg.flagsAddr r ≠ addrA := Reg.flagsAddr_ne_addr_any r .a

theorem Reg.flagsAddr_ne_addrB (r : Reg) : Reg.flagsAddr r ≠ addrB := Reg.flagsAddr_ne_addr_any r .b

/-- A flags byte tells its register, because its address is `129 + fP`. -/
theorem Reg.ofField_flagsAddr (r : Reg) : Reg.ofField ((Reg.flagsAddr r - 129#8).setWidth 2) = r := by
  cases r <;> rfl

theorem Reg.flagsAddr_injective {r r' : Reg} (h : Reg.flagsAddr r = Reg.flagsAddr r') : r = r' := by
  rw [← Reg.ofField_flagsAddr r, h, Reg.ofField_flagsAddr]

/-- A flags byte is a destination of ADD and SUB on its register alone. -/
theorem eq_add_or_sub_of_flagsAddr_mem_destinations {i : Instr} {r : Reg}
    (h : Reg.flagsAddr r ∈ destinations i) : ∃ mode opnd, i = .add r mode opnd ∨ i = .sub r mode opnd := by
  cases i with
  | add r' mode opnd | sub r' mode opnd =>
    simp only [destinations, List.mem_cons, List.not_mem_nil, or_false,
      Reg.flagsAddr_ne_addr_any, false_or] at h
    obtain rfl := Reg.flagsAddr_injective h
    exact ⟨mode, opnd, by simp⟩
  | load | or | and | lneg | ext1 | ext2 | sftr | rotr | sftl | rotl =>
    simp [destinations, Reg.flagsAddr_ne_addr_any, Reg.flagsAddr_ne_addrA, Reg.flagsAddr_ne_addrB,
      Reg.flagsAddr_ne_shiftReg_addr] at h
  | halt | nop | set0 | set1 | skp0 | skp1 | jpd | jpi | jmd | jmi | store =>
    simp [destinations] at h

/-! ## The result (R202) -/

/-- Every instruction but HALT and the extension opcodes ends with the result true. -/
theorem exec_keeps_running (i : Instr) (s : State) :
    (∃ ign, i = .halt ign) ∨ (∃ op n, IsExtension i op n) ∨
      ∃ (u : State) (n : Byte), exec i s = u.complete n true := by
  cases i with
  | halt ign => exact .inl ⟨ign, rfl⟩
  | ext1 op => exact .inr (.inl ⟨op, 1#8, .inl ⟨rfl, rfl⟩⟩)
  | ext2 mode opnd => exact .inr (.inl ⟨_, 2#8, .inr ⟨mode, opnd, rfl, rfl, rfl⟩⟩)
  | jpd test opnd | jpi test opnd =>
    simp only [exec_jpd, exec_jpi, jumpTo]
    split <;> exact .inr (.inr ⟨_, _, rfl⟩)
  | jmd test opnd | jmi test opnd =>
    simp only [exec_jmd, exec_jmi, markAndJumpTo]
    split <;> exact .inr (.inr ⟨_, _, rfl⟩)
  | nop | sftr | rotr | sftl | rotl | set0 | set1 | skp0 | skp1 | or | and | lneg | add | sub | load
  | store => exact .inr (.inr ⟨_, _, rfl⟩)

theorem keep_of_complete_eq_next {u t : State} {n : Byte} {keep : Bool}
    (h : u.complete n keep = .next t) : t.keep = keep :=
  congrArg State.keep (State.complete_eq_next.mp h).2

/-- The system call's result is false where the store refuses a write. -/
theorem systemCall_result_false {s : State} (h : (systemCall s).2 = false) :
    (s.memRead 0#8).getLsbD 7 = true ∧ (s.askCfgWrite s.sysIndex (s.memRead 1#8)).1 = false := by
  cases hdirection : (s.memRead 0#8).getLsbD 7 with
  | true => exact ⟨rfl, by rw [systemCall_of_write hdirection] at h; exact h⟩
  | false =>
    rw [systemCall_of_read hdirection] at h
    exact absurd h (by simp)

/-- A hook call returns false where an unknown hook answers false, or where the system call does. -/
theorem callHook_result_false {op n : Byte} {s t : State} (h : callHook op n s = .next t)
    (hkeep : t.keep = false) :
    (s.params.hook = .custom ∧ ∃ writes, (s.askHook op).1 = .ran writes false) ∨
    (s.params.hook = .controller ∧ op = s.params.syscallOpcode ∧ (systemCall s).2 = false) := by
  cases hhook : s.params.hook with
  | standalone =>
    rw [callHook_of_standalone hhook] at h
    exact absurd ((keep_of_complete_eq_next h).symm.trans hkeep) (by decide)
  | controller =>
    by_cases hop : op = s.params.syscallOpcode
    · rw [hop, callHook_of_syscallOpcode hhook] at h
      exact .inr ⟨rfl, hop, (keep_of_complete_eq_next h).symm.trans hkeep⟩
    · rw [callHook_of_other_opcode hhook hop] at h
      exact absurd ((keep_of_complete_eq_next h).symm.trans hkeep) (by decide)
  | custom =>
    cases hanswer : (s.askHook op).1 with
    | ran writes keep =>
      rw [callHook_of_ran hhook hanswer] at h
      obtain rfl : keep = false := (keep_of_complete_eq_next h).symm.trans hkeep
      exact .inl ⟨rfl, writes, rfl⟩
    | reentered =>
      rw [callHook_of_reentered hhook hanswer] at h
      exact absurd h nofun
    | diverged =>
      rw [callHook_of_diverged hhook hanswer] at h
      exact absurd h nofun

end Sys2Proof.Machine

namespace Sys2Proof
open Machine

/-- Settles O5: a step is an instruction, and every instruction completes. -/
theorem everyStepCompletes : Obligations.EveryStepCompletes :=
  fun s hcurrent hhook => exec_completes s.fetch hcurrent hhook

/-- Settles O6: the end of an instruction refuses, where its hook has not refused before. -/
theorem legacyPcRefusesEveryInstruction : Obligations.LegacyPcRefusesEveryInstruction :=
  fun i _ h => exec_refused_of_legacyPc i h

/-- Settles O39: the body of an instruction keeps to the frame, and the advance writes address 3. -/
theorem everyOtherByteIsUnchanged : Obligations.EveryOtherByteIsUnchanged :=
  fun _ _ _ hexec hhook _ hpc hdest hstore => exec_memRead_of_frame hexec hhook hpc hdest hstore

/-- Settles O40: a flags byte that changes is a destination or the byte stored to. -/
theorem onlyAddAndSubWriteFlags : Obligations.OnlyAddAndSubWriteFlags := by
  intro i s t r hexec hhook hchanged
  by_cases hdest : Reg.flagsAddr r ∈ destinations i
  · exact .inl (eq_add_or_sub_of_flagsAddr_mem_destinations hdest)
  · by_contra hneither
    have hstore : storeAddress s i ≠ some (Reg.flagsAddr r) := fun h => hneither (.inr h)
    exact hchanged (exec_memRead_of_frame hexec hhook (Reg.flagsAddr_ne_addrPC r) hdest hstore)

/-- Settles O41: neither the body of an instruction nor its end reaches the controller's state. -/
theorem noInstructionReachesTheController : Obligations.NoInstructionReachesTheController :=
  fun _ _ _ hexec => exec_sameControl hexec

/-- Settles O42: only HALT and a hook call can end with a result that is not true. -/
theorem sourcesOfKeepFalse : Obligations.SourcesOfKeepFalse := by
  intro i s t hexec hkeep
  rcases exec_keeps_running i s with hhalt | ⟨op, n, hext⟩ | ⟨u, n, hrun⟩
  · exact .inl hhalt
  · rw [exec_of_isExtension hext] at hexec
    rcases callHook_result_false hexec hkeep with ⟨hhook, writes, hran⟩ | ⟨hhook, rfl, hresult⟩
    · exact .inr (.inl ⟨op, n, writes, hext, hhook, hran⟩)
    · exact .inr (.inr ⟨n, ⟨hhook, hext⟩, systemCall_result_false hresult⟩)
  · rw [hrun] at hexec
    exact absurd ((keep_of_complete_eq_next hexec).symm.trans hkeep) (by decide)

end Sys2Proof
end

section
/-! PROOFS. A step sees nothing but memory, the parameters and the answers of the outside (spec
10_state.md sections 6 and 7, 60_exceptions.md R202). -/

namespace Sys2Proof.Machine

/-! ## States that a program cannot tell apart -/

/-- The two states agree on what an instruction can see. -/
def State.AgreesWith (s s' : State) : Prop :=
  s'.mem = s.mem ∧ s'.params = s.params ∧ s'.oracle = s.oracle

/-- If the first outcome is a next state, so is the second, with the same result, and the two agree. -/
def OutcomesAgree (o o' : Result) : Prop :=
  ∀ t, o = .next t → ∃ t', o' = .next t' ∧ t.AgreesWith t' ∧ t'.keep = t.keep

theorem OutcomesAgree.of_refused {r : Refusal} {o' : Result} : OutcomesAgree (.refused r) o' := nofun

section
variable {s s' : State} (h : s.AgreesWith s')
include h

theorem State.AgreesWith.memRead (a : Addr) : s'.memRead a = s.memRead a := State.memRead_of_mem h.1 a

theorem State.AgreesWith.ea (mode : AddrMode) (opnd : Byte) : ea s' mode opnd = ea s mode opnd := by
  cases mode <;> simp only [Machine.ea, State.pc, h.memRead]

theorem State.AgreesWith.taken (test : JumpTest) : taken s' test = taken s test := by
  cases test with
  | reg r cc => simp only [Machine.taken, State.reg, h.memRead]
  | always k => rfl

theorem State.AgreesWith.fetch : s'.fetch = s.fetch := by
  have hread : s'.memRead = s.memRead := funext h.memRead
  rw [State.fetch, State.fetch, State.pc, State.pc, hread]

/-! ## Each operation keeps the agreement -/

theorem State.AgreesWith.memWrite (a : Addr) (v : Byte) :
    (s.memWrite a v).AgreesWith (s'.memWrite a v) :=
  ⟨congrArg (Memory.write · a.toNat v) h.1, h.2⟩

theorem State.AgreesWith.memWriteAll (ws : Writes) : (s.memWriteAll ws).AgreesWith (s'.memWriteAll ws) :=
  ⟨congrArg (Memory.writeAll · ws) h.1, h.2⟩

theorem State.AgreesWith.complete (n : Byte) (keep : Bool) :
    OutcomesAgree (s.complete n keep) (s'.complete n keep) := by
  intro t hnext
  obtain ⟨hcurrent, rfl⟩ := State.complete_eq_next.mp hnext
  have hcurrent' : s'.CurrentPc := (congrArg Params.legacyPc h.2.1).trans hcurrent
  have hadvance : (s.advance n).AgreesWith (s'.advance n) := by
    simpa only [State.advance, h.memRead] using h.memWrite addrPC (s.memRead addrPC + n)
  exact ⟨_, State.complete_of_current hcurrent' n keep, hadvance, rfl⟩

theorem State.AgreesWith.memWrite_complete (a : Addr) (v n : Byte) (keep : Bool) :
    OutcomesAgree ((s.memWrite a v).complete n keep) ((s'.memWrite a v).complete n keep) :=
  (h.memWrite a v).complete n keep

theorem State.AgreesWith.askCfgRead (idx : BitVec 7) :
    (s'.askCfgRead idx).1 = (s.askCfgRead idx).1 ∧
      (s.askCfgRead idx).2.AgreesWith (s'.askCfgRead idx).2 := by
  obtain ⟨hmem, hparams, horacle⟩ := h
  simp only [State.askCfgRead, State.emit_oracle, horacle]
  split <;> exact ⟨rfl, hmem, hparams, rfl⟩

theorem State.AgreesWith.askCfgWrite (idx : BitVec 7) (v : Byte) :
    (s'.askCfgWrite idx v).1 = (s.askCfgWrite idx v).1 ∧
      (s.askCfgWrite idx v).2.AgreesWith (s'.askCfgWrite idx v).2 := by
  obtain ⟨hmem, hparams, horacle⟩ := h
  simp only [State.askCfgWrite, State.emit_oracle, horacle]
  split <;> exact ⟨rfl, hmem, hparams, rfl⟩

theorem State.AgreesWith.askHook (op : Byte) :
    (s'.askHook op).1 = (s.askHook op).1 ∧ (s.askHook op).2.AgreesWith (s'.askHook op).2 := by
  obtain ⟨hmem, hparams, horacle⟩ := h
  simp only [State.askHook, State.emit_oracle, horacle]
  split <;> exact ⟨rfl, hmem, hparams, rfl⟩

theorem State.AgreesWith.sysRead (idx : BitVec 7) : (sysRead s idx).AgreesWith (sysRead s' idx) := by
  obtain ⟨hanswer, hasked⟩ := h.askCfgRead idx
  unfold Machine.sysRead
  split
  · exact h.memWrite addrB 0#8
  · simpa only [hanswer] using hasked.memWrite addrB (s.askCfgRead idx).1

theorem State.AgreesWith.systemCall :
    (systemCall s').2 = (systemCall s).2 ∧ (systemCall s).1.AgreesWith (systemCall s').1 := by
  unfold Machine.systemCall
  simp only [h.memRead]
  split
  · exact h.askCfgWrite _ _
  · exact ⟨rfl, h.sysRead _⟩

theorem State.AgreesWith.callHook (op n : Byte) :
    OutcomesAgree (callHook op n s) (callHook op n s') := by
  have hparams : s'.params = s.params := h.2.1
  unfold Machine.callHook
  rw [hparams]
  split
  · exact h.complete n true
  · obtain ⟨hresult, hcalled⟩ := h.systemCall
    split
    · rw [hresult]
      exact hcalled.complete n _
    · exact h.complete n true
  · obtain ⟨hanswer, hasked⟩ := h.askHook op
    rw [hanswer]
    split
    · exact (hasked.memWriteAll _).complete n _
    · exact .of_refused
    · exact .of_refused

theorem State.AgreesWith.shiftWith (r : ShiftReg) (f : Byte → Byte) :
    OutcomesAgree (shiftWith r f s) (shiftWith r f s') := by
  simpa only [Machine.shiftWith, h.memRead] using h.memWrite_complete _ _ _ _

theorem State.AgreesWith.jumpTo (go : Bool) (target : Addr) :
    OutcomesAgree (jumpTo go target s) (jumpTo go target s') := by
  unfold Machine.jumpTo
  split
  · exact h.memWrite_complete _ _ _ _
  · exact h.complete _ _

theorem State.AgreesWith.markAndJumpTo (go : Bool) (target : Addr) :
    OutcomesAgree (markAndJumpTo go target s) (markAndJumpTo go target s') := by
  unfold Machine.markAndJumpTo
  split
  · simpa only [State.pc, h.memRead] using (h.memWrite _ _).memWrite_complete _ _ _ _
  · exact h.complete _ _

theorem State.AgreesWith.resultWithFlags (r : Reg) (res flags : Byte) :
    OutcomesAgree (resultWithFlags r res flags s) (resultWithFlags r res flags s') :=
  (h.memWrite _ _).memWrite_complete _ _ _ _

/-- Every instruction gives agreeing outcomes in states that agree. -/
theorem State.AgreesWith.exec (i : Instr) : OutcomesAgree (exec i s) (exec i s') := by
  have hparams : s'.params = s.params := h.2.1
  cases i with
  | halt | nop => exact h.complete _ _
  | ext1 op => exact h.callHook op 1#8
  | ext2 mode opnd => exact h.callHook _ 2#8
  | sftr | rotr | sftl | rotl =>
    simpa only [exec_sftr, exec_rotr, exec_sftl, exec_rotl, hparams] using h.shiftWith _ _
  | set0 | set1 => simpa only [exec_set0, exec_set1, h.memRead] using h.memWrite_complete _ _ _ _
  | skp0 | skp1 => simpa only [exec_skp0, exec_skp1, h.memRead] using h.complete _ _
  | jpd | jpi => simpa only [exec_jpd, exec_jpi, h.taken, h.memRead] using h.jumpTo _ _
  | jmd | jmi => simpa only [exec_jmd, exec_jmi, h.taken, h.memRead] using h.markAndJumpTo _ _
  | or | and | lneg =>
    simpa only [exec_or, exec_and, exec_lneg, h.ea, h.memRead] using h.memWrite_complete _ _ _ _
  | add | sub => simpa only [exec_add, exec_sub, h.ea, h.memRead] using h.resultWithFlags _ _ _
  | load | store =>
    simpa only [exec_load, exec_store, h.ea, h.memRead] using h.memWrite_complete _ _ _ _

end

end Sys2Proof.Machine

namespace Sys2Proof
open Machine

/-- Settles O43: states that agree fetch the same instruction, and it gives agreeing outcomes. -/
theorem stepDependsOnlyOnMemoryAndAnswers : Obligations.StepDependsOnlyOnMemoryAndAnswers := by
  intro s s' t hmem hparams horacle hstep
  have hagree : s.AgreesWith s' := ⟨hmem, hparams, horacle⟩
  obtain ⟨t', hstep', ⟨hmem', hparams', horacle'⟩, hkeep⟩ := hagree.exec s.fetch t hstep
  rw [← hagree.fetch] at hstep'
  exact ⟨t', hstep', hmem', hparams', horacle', hkeep⟩

end Sys2Proof
end

section
/-! PROOFS. The invariant `State.safe`, kept by every step and every cycle (spec 10_state.md sections 1
and 7), and the state after reset (section 8). -/

namespace Sys2Proof.Machine

/-! ## The invariant and the updates -/

theorem State.safe_iff (s : State) :
    s.safe = true ↔ Memory.wf s.mem = true ∧ Params.wf s.params = true ∧
      ∀ d, s.delay = some d → d.toNat ≤ 7 := by
  unfold State.safe
  cases s.delay <;> simp [and_assoc]

/-- What leaves the parameters and the delay alone and keeps memory canonical keeps the invariant. -/
theorem State.safe_of_mem {s t : State} (hs : s.safe = true)
    (hmem : Memory.wf s.mem = true → Memory.wf t.mem = true) (hparams : t.params = s.params)
    (hdelay : t.delay = s.delay) : t.safe = true := by
  rw [State.safe_iff] at hs ⊢
  obtain ⟨hwf, hlegal, hrange⟩ := hs
  exact ⟨hmem hwf, hparams ▸ hlegal, hdelay ▸ hrange⟩

@[simp] theorem State.safe_withRun (s : State) (v : Bool) : (s.withRun v).safe = s.safe := rfl
@[simp] theorem State.safe_withMode (s : State) (v : DisplayMode) : (s.withMode v).safe = s.safe := rfl
@[simp] theorem State.safe_withCursor (s : State) (v : Addr) : (s.withCursor v).safe = s.safe := rfl
@[simp] theorem State.safe_withDisp (s : State) (v : Byte) : (s.withDisp v).safe = s.safe := rfl
@[simp] theorem State.safe_emit (s : State) (e : PortEvent) : (s.emit e).safe = s.safe := rfl
@[simp] theorem State.safe_showOutput (s : State) : s.showOutput.safe = s.safe := rfl
@[simp] theorem State.safe_rendered (s : State) : s.rendered.safe = s.safe := rfl

theorem State.safe_memWrite {s : State} (h : s.safe = true) (a : Addr) (v : Byte) :
    (s.memWrite a v).safe = true := State.safe_of_mem h (s.wf_memWrite a v) rfl rfl

theorem State.safe_memWriteAll {s : State} (h : s.safe = true) (ws : Writes) :
    (s.memWriteAll ws).safe = true := State.safe_of_mem h (s.wf_memWriteAll ws) rfl rfl

theorem State.safe_clearAllMemory {s : State} (h : s.safe = true) : s.clearAllMemory.safe = true :=
  State.safe_of_mem h (fun _ => rfl) rfl rfl

theorem State.safe_withDelay {s : State} (h : s.safe = true) (d : BitVec 4) (hd : d.toNat ≤ 7) :
    (s.withDelay (some d)).safe = true := by
  rw [State.safe_iff] at h ⊢
  obtain ⟨hwf, hlegal, -⟩ := h
  exact ⟨hwf, hlegal, fun _ hsome => Option.some.inj hsome ▸ hd⟩

theorem OnlyAsks.safe {s t : State} (h : OnlyAsks s t) (hs : s.safe = true) : t.safe = true := by
  obtain ⟨⟨-, -, -, hdelay, -, hparams⟩, hmem, -⟩ := h
  exact State.safe_of_mem hs (fun hwf => hmem ▸ hwf) hparams hdelay

/-! ## Steps -/

theorem exec_safe {i : Instr} {s t : State} (h : exec i s = .next t) (hs : s.safe = true) :
    t.safe = true := by
  obtain ⟨-, -, -, hdelay, -, hparams⟩ := exec_sameControl h
  exact State.safe_of_mem hs (exec_wf_mem h) hparams hdelay

theorem step_safe {s t : State} (h : step s = .next t) (hs : s.safe = true) : t.safe = true :=
  exec_safe h hs

/-! ## Commands of the panel -/

theorem sysRead_safe {s : State} (h : s.safe = true) (idx : BitVec 7) : (sysRead s idx).safe = true := by
  unfold sysRead
  split
  · exact State.safe_memWrite h _ _
  · exact State.safe_memWrite ((askCfgRead_onlyAsks s idx).safe h) _ _

theorem digitPress_safe {s : State} (h : s.safe = true) (k : Fin 8) (partner : Option Button) :
    (digitPress k partner s).safe = true := by
  unfold digitPress
  split
  · exact State.safe_memWriteAll ((askCanned_onlyAsks s k).safe h) _
  · exact State.safe_memWrite h _ _

theorem clearPress_safe {s : State} (h : s.safe = true) (partner : Option Button) :
    (clearPress partner s).safe = true := by
  unfold clearPress
  split
  · exact h
  · exact State.safe_memWrite h addrIN 0#8

/-- A digit of the panel is a delay in range. -/
theorem stopCommand_safe {s : State} (h : s.safe = true) (partner : Option Button) :
    (stopCommand partner s).safe = true := by
  unfold stopCommand
  split
  · rename_i k
    have hk : (BitVec.ofNat 4 k.val).toNat ≤ 7 := by
      rw [BitVec.toNat_ofNat]
      omega
    exact State.safe_withDelay h _ hk
  · exact h

theorem slotLoadCommand_safe {s : State} (h : s.safe = true) (k : Fin 8) :
    (slotLoadCommand k s).safe = true := by
  have hasked := (askSlotLoad_onlyAsks s k).safe h
  unfold slotLoadCommand
  dsimp only
  split
  · exact hasked
  · exact State.safe_memWriteAll hasked _

theorem dumpCommand_safe {s : State} (h : s.safe = true) (k : Fin 8) : (dumpCommand k s).safe = true :=
  (askDumpRange_onlyAsks s k).safe h

theorem serialLoadCommand_safe {s : State} (h : s.safe = true) (k : Fin 8) :
    (serialLoadCommand k s).safe = true := by
  simpa only [serialLoadCommand, State.safe_emit] using
    State.safe_memWriteAll ((askSerialLoad_onlyAsks s k).safe h) _

theorem sysReadCommand_safe {s : State} (h : s.safe = true) : (sysReadCommand s).safe = true := by
  simpa only [sysReadCommand, State.safe_withMode, State.safe_withDisp] using sysRead_safe h _

theorem sysWriteCommand_safe {s : State} (h : s.safe = true) : (sysWriteCommand s).safe = true :=
  (askCfgWrite_onlyAsks s _ _).safe h

theorem slotSaveCommand_safe {s : State} (h : s.safe = true) (k : Fin 8) :
    (slotSaveCommand k s).safe = true := (askSlotSave_onlyAsks s k).safe h

theorem clearAllCommand_safe {s : State} (h : s.safe = true) : (clearAllCommand s).safe = true := by
  simpa only [clearAllCommand, State.safe_withMode, State.safe_withDisp, State.safe_withCursor] using
    State.safe_clearAllMemory h

theorem storeCommand_safe {s : State} (h : s.safe = true) : (storeCommand s).safe = true := by
  simpa only [storeCommand, State.safe_withMode, State.safe_withDisp, State.safe_withCursor] using
    State.safe_memWrite h s.cursor (s.memRead addrIN)

/-- The invariant of an outcome that is a next state. -/
theorem safe_of_next_eq {u t : State} (h : (.next u : Result) = .next t) (hu : u.safe = true) :
    t.safe = true := Host.Outcome.next.inj h ▸ hu

theorem singleStepCommand_safe {s t : State} (hnext : singleStepCommand s = .next t)
    (h : s.safe = true) : t.safe = true := by
  obtain ⟨u, hstep, hshown⟩ := andThen_eq_next.mp hnext
  exact safe_of_next_eq hshown (u.safe_showOutput.trans (step_safe hstep h))

theorem dispatchRunning_safe {s : State} (h : s.safe = true) (b : Button) (partner : Option Button) :
    (dispatchRunning b partner s).safe = true := by
  cases b with
  | digit k => exact digitPress_safe h k partner
  | clr => exact clearPress_safe h partner
  | stop => exact stopCommand_safe h partner
  | disp | set | read | store | start => exact h

theorem dispatchHalted_safe {b : Button} {partner : Option Button} {s t : State}
    (hnext : dispatchHalted b partner s = .next t) (h : s.safe = true) : t.safe = true := by
  cases b with
  | digit k => exact safe_of_next_eq hnext (digitPress_safe h k partner)
  | clr => exact safe_of_next_eq hnext (clearPress_safe h partner)
  | stop => exact safe_of_next_eq hnext (stopCommand_safe h partner)
  | disp =>
    simp only [dispatchHalted] at hnext
    split at hnext
    · exact safe_of_next_eq hnext (dumpCommand_safe h _)
    · exact safe_of_next_eq (u := showCursorCommand s) hnext h
  | set =>
    simp only [dispatchHalted] at hnext
    split at hnext
    · exact safe_of_next_eq hnext (serialLoadCommand_safe h _)
    · exact safe_of_next_eq (u := setCursorCommand s) hnext h
  | read =>
    simp only [dispatchHalted] at hnext
    split at hnext
    · exact safe_of_next_eq hnext (slotLoadCommand_safe h _)
    · exact safe_of_next_eq hnext (sysReadCommand_safe h)
    · exact safe_of_next_eq (u := readCommand s) hnext h
  | store =>
    simp only [dispatchHalted] at hnext
    split at hnext
    · exact safe_of_next_eq hnext (slotSaveCommand_safe h _)
    · exact safe_of_next_eq hnext (sysWriteCommand_safe h)
    · exact safe_of_next_eq hnext (clearAllCommand_safe h)
    · exact safe_of_next_eq hnext (storeCommand_safe h)
  | start =>
    simp only [dispatchHalted] at hnext
    split at hnext
    · exact singleStepCommand_safe hnext h
    · exact safe_of_next_eq (u := startCommand s) hnext h

/-! ## Presses and cycles -/

theorem pressesRunning_safe (held : BitVec 16) (presses : List Button) {s : State}
    (h : s.safe = true) : (pressesRunning held presses s).safe = true := by
  induction presses generalizing s with
  | nil => exact h
  | cons b rest ih => exact ih (dispatchRunning_safe h b _)

theorem pressesHalted_safe {held : BitVec 16} {presses : List Button} {s t : State}
    (hnext : pressesHalted held presses s = .next t) (h : s.safe = true) : t.safe = true := by
  induction presses generalizing s with
  | nil => exact safe_of_next_eq hnext h
  | cons b rest ih =>
    obtain ⟨u, hfirst, hrest⟩ := andThen_eq_next.mp hnext
    exact ih hrest (dispatchHalted_safe hfirst h)

theorem State.cycleDelay_safe {s : State} (h : s.safe = true) : s.cycleDelay.safe = true := by
  unfold State.cycleDelay
  split
  · exact h
  · rename_i d _
    have hasked := (askSleep_onlyAsks s (2 ^ d.toNat)).safe h
    dsimp only
    split
    · exact hasked
    · exact hasked

theorem State.afterStep_safe {s : State} (h : s.safe = true) : s.afterStep.safe = true := by
  unfold State.afterStep
  split
  · exact State.cycleDelay_safe h
  · exact h

theorem State.sampleRunning_safe {s : State} (h : s.safe = true) : s.sampleRunning.safe = true := by
  have hasked := (askSample_onlyAsks s false).safe h
  unfold State.sampleRunning
  split
  · exact hasked
  · exact pressesRunning_safe _ _ hasked

theorem cycleRunning_safe {s t : State} (hnext : cycleRunning s = .next t) (h : s.safe = true) :
    t.safe = true := by
  have hpressed := State.sampleRunning_safe h
  unfold cycleRunning at hnext
  split at hnext
  · obtain ⟨u, hstep, hafter⟩ := andThen_eq_next.mp hnext
    exact safe_of_next_eq hafter (State.afterStep_safe (step_safe hstep hpressed))
  · exact safe_of_next_eq hnext hpressed

theorem cycleHalted_safe {s t : State} (hnext : cycleHalted s = .next t) (h : s.safe = true) :
    t.safe = true := by
  have hasked := (askSample_onlyAsks s true).safe h
  unfold cycleHalted at hnext
  split at hnext
  · exact safe_of_next_eq hnext hasked
  · exact pressesHalted_safe hnext hasked

theorem cycle_safe {s t : State} (hnext : cycle s = .next t) (h : s.safe = true) : t.safe = true := by
  obtain ⟨u, hbranch, hrendered⟩ := andThen_eq_next.mp hnext
  have hu : u.safe = true := by
    split at hbranch
    · exact cycleRunning_safe hbranch h
    · exact cycleHalted_safe hbranch h
  exact safe_of_next_eq hrendered (u.safe_rendered.trans hu)

/-! ## Reset (R44, R302) -/

theorem memRead_reset (a : Addr) : State.reset.memRead a = 0#8 := rfl

/-- The zero byte at address 0 is a HALT. -/
theorem fetch_reset : State.reset.fetch = .halt 0#4 := by
  decide

end Sys2Proof.Machine

namespace Sys2Proof
open Machine

/-- Settles O44: an instruction keeps memory canonical and leaves the parameters and the delay alone. -/
theorem stepKeepsTheStateSafe : Obligations.StepKeepsTheStateSafe :=
  fun _ _ hsafe hstep => step_safe hstep hsafe

/-- Settles O45: each command, each step and each draw of a cycle keeps the invariant. -/
theorem cycleKeepsTheStateSafe : Obligations.CycleKeepsTheStateSafe :=
  fun _ _ hsafe hcycle => cycle_safe hcycle hsafe

/-- Settles O46: the invariant is a test, which the one state after reset passes. -/
theorem resetIsSafe : Obligations.ResetIsSafe := by
  unfold Obligations.ResetIsSafe
  decide

/-- Settles O47: the first step after reset is a HALT at address 0. -/
theorem resetIsZeroAndHalted : Obligations.ResetIsZeroAndHalted := by
  refine ⟨memRead_reset, rfl, rfl, rfl, rfl, rfl, rfl, rfl, ?_⟩
  obtain ⟨t, hnext, hkeep, -, hmem⟩ := (haltAdvancesAndReturnsFalse 0#4 State.reset rfl).2
  rw [← fetch_reset] at hnext
  exact ⟨t, hnext, hkeep, fun a => by simpa only [memRead_reset, BitVec.zero_add] using hmem a⟩

end Sys2Proof
end

section
/-! PROOFS. The serial protocol's round trip, as a format and through the panel's two commands (spec
61_front_panel.md R249, R263, R265). -/

namespace Sys2Proof.Machine

/-! ## One character of a load in base 8 -/

theorem parseFrom_digit {rules : SerialRules} {c : Byte} {d : Nat}
    (h : digitValue rules false c = some d) (pending : Option Nat) (rest : List Byte) :
    parseFrom rules false pending (c :: rest) =
      parseFrom rules false (some (pending.getD 0 * 8 + d)) rest := by
  simp [parseFrom, h]

theorem parseFrom_delimiter (rules : SerialRules) {c : Byte} (h : isDelimiter c = true)
    (pending : Option Nat) (rest : List Byte) :
    parseFrom rules false pending (c :: rest) =
      flushValue rules pending ++ parseFrom rules false none rest := by
  obtain ⟨hdigit, hstop, hhex⟩ := (isDelimiter_iff rules c).mp h
  simp [parseFrom, hdigit, hstop, hhex]

theorem digitValue_octalChar (rules : SerialRules) {d : Nat} (h : d < 8) :
    digitValue rules false (octalChar d) = some d := by
  have hchar : (octalChar d).toNat = 48 + d := by
    rw [octalChar, BitVec.toNat_ofNat]
    omega
  simp only [digitValue, hchar]
  rw [if_pos (by omega), Nat.add_sub_cancel_left]

/-- An accumulated value below 256 is the byte of that value. -/
theorem valueByte_toNat (rules : SerialRules) (v : Byte) : valueByte rules v.toNat = v := by
  rw [valueByte, if_pos v.isLt, BitVec.ofNat_toNat, BitVec.setWidth_eq]

/-! ## What a dump parses to -/

/-- Three base-8 digits make up a value. -/
theorem octal_digits_value (n : Nat) : (n / 64 * 8 + n / 8 % 8) * 8 + n % 8 = n := by
  omega

/-- The characters of a byte parse to the byte, and leave no value pending. -/
theorem parseFrom_dumpByte (rules : SerialRules) (v : Byte) (rest : List Byte) :
    parseFrom rules false none (dumpByte v ++ rest) = v :: parseFrom rules false none rest := by
  have hzero : digitValue rules false 48#8 = some 0 := digitValue_octalChar rules (d := 0) (by decide)
  have hhigh := digitValue_octalChar rules (d := v.toNat / 64) (by omega)
  have hmid := digitValue_octalChar rules (d := v.toNat / 8 % 8) (by omega)
  have hlow := digitValue_octalChar rules (d := v.toNat % 8) (by omega)
  simp only [dumpByte, List.cons_append, List.nil_append, parseFrom_digit hzero,
    parseFrom_digit hhigh, parseFrom_digit hmid, parseFrom_digit hlow,
    parseFrom_delimiter rules (c := 44#8) (by decide), Option.getD_none, Option.getD_some,
    Nat.zero_mul, Nat.zero_add, octal_digits_value, flushValue, valueByte_toNat]

/-- Delimiters with no value pending stand for nothing. -/
theorem parseFrom_delimiters (rules : SerialRules) {newline : List Byte}
    (h : ∀ c ∈ newline, isDelimiter c = true) (rest : List Byte) :
    parseFrom rules false none (newline ++ rest) = parseFrom rules false none rest := by
  induction newline with
  | nil => rfl
  | cons c tail ih =>
    rw [List.cons_append, parseFrom_delimiter rules (h c List.mem_cons_self)]
    exact ih fun d hd => h d (List.mem_cons_of_mem c hd)

theorem parseFrom_dumpFrom (rules : SerialRules) {newline : List Byte}
    (h : ∀ c ∈ newline, isDelimiter c = true) (sentBefore : Nat) (bytes : List Byte) :
    parseFrom rules false none (dumpFrom newline sentBefore bytes) = bytes := by
  induction bytes generalizing sentBefore with
  | nil => exact endValue_none rules none
  | cons v rest ih =>
    rw [dumpFrom, List.append_assoc, parseFrom_dumpByte]
    split
    · rw [parseFrom_delimiters rules h, ih]
    · rw [List.nil_append, ih]

/-- A dump parses to the bytes that were dumped. -/
theorem parseBytes_dumpBytes (rules : SerialRules) {newline : List Byte}
    (h : ∀ c ∈ newline, isDelimiter c = true) (bytes : List Byte) :
    parseBytes rules (dumpBytes newline bytes) = bytes := parseFrom_dumpFrom rules h 0 bytes

/-! ## The bytes of a range, dumped and stored again -/

@[simp] theorem State.length_bytesFrom (s : State) (a : Addr) (n : Nat) :
    (s.bytesFrom a n).length = n := by
  induction n generalizing a with
  | zero => rfl
  | succ n ih => rw [State.bytesFrom, List.length_cons, ih]

theorem State.bytesFrom_of_mem {s t : State} (h : t.mem = s.mem) (a : Addr) (n : Nat) :
    t.bytesFrom a n = s.bytesFrom a n := by
  induction n generalizing a with
  | zero => rfl
  | succ n ih => rw [State.bytesFrom, State.bytesFrom, ih, State.memRead_of_mem h]

/-- The first address of a range, and those after it. -/
theorem sub_toNat_lt_succ_iff (a b : Addr) (n : Nat) :
    (b - a).toNat < n + 1 ↔ b = a ∨ (b - (a + 1#8)).toNat < n := by
  rw [← BitVec.toNat_inj, BitVec.toNat_sub, BitVec.toNat_sub, BitVec.toNat_add]
  have hone : (1#8).toNat = 1 := rfl
  omega

/-- The bytes of a range, stored from the same address into any memory, are the bytes of the range. -/
theorem State.memRead_memWriteAll_writesFrom (s u : State) (start a : Addr) (n : Nat) :
    (u.memWriteAll (writesFrom start (s.bytesFrom start n))).memRead a =
      if (a - start).toNat < n then s.memRead a else u.memRead a := by
  induction n generalizing u start with
  | zero => rfl
  | succ n ih =>
    have hrest := ih (u.memWrite start (s.memRead start)) (start + 1#8)
    rw [State.memRead_memWrite] at hrest
    refine hrest.trans ?_
    simp only [sub_toNat_lt_succ_iff]
    by_cases ha : a = start
    · simp [ha]
    · simp [ha]

/-- All 256 bytes reproduce the memory. -/
theorem State.memRead_reloaded (s u : State) (start a : Addr) :
    (u.memWriteAll (writesFrom start (s.bytesFrom start 256))).memRead a = s.memRead a :=
  (State.memRead_memWriteAll_writesFrom s u start a 256).trans (if_pos (a - start).isLt)

/-! ## The checksum -/

theorem toNat_checksum (bytes : List Byte) :
    (checksum bytes).toNat = (bytes.map BitVec.toNat).sum % 256 := by
  induction bytes with
  | nil => rfl
  | cons v rest ih =>
    rw [checksum, BitVec.toNat_add, ih, List.map_cons, List.sum_cons]
    omega

/-- The 256 addresses in rising order from `a`, wrapping at the top. -/
def addressesFrom (a : Addr) : List Addr := (List.range 256).map fun k => a + BitVec.ofNat 8 k

theorem mem_addressesFrom (a b : Addr) : b ∈ addressesFrom a := by
  refine List.mem_map.mpr ⟨(b - a).toNat, List.mem_range.mpr (b - a).isLt, ?_⟩
  rw [BitVec.ofNat_toNat, BitVec.setWidth_eq, BitVec.add_comm, BitVec.sub_add_cancel]

theorem nodup_addressesFrom (a : Addr) : (addressesFrom a).Nodup := by
  refine List.nodup_range.map_on fun j hj k hk heq => ?_
  have hvalue := congrArg BitVec.toNat (add_left_cancel heq)
  rwa [BitVec.toNat_ofNat, BitVec.toNat_ofNat, Nat.mod_eq_of_lt (List.mem_range.mp hj),
    Nat.mod_eq_of_lt (List.mem_range.mp hk)] at hvalue

/-- From wherever they are counted, they are the same addresses. -/
theorem addressesFrom_perm (a b : Addr) : (addressesFrom a).Perm (addressesFrom b) :=
  (List.perm_ext_iff_of_nodup (nodup_addressesFrom a) (nodup_addressesFrom b)).mpr fun c =>
    iff_of_true (mem_addressesFrom a c) (mem_addressesFrom b c)

theorem State.bytesFrom_eq_map (s : State) (a : Addr) (n : Nat) :
    s.bytesFrom a n = (List.range n).map fun k => s.memRead (a + BitVec.ofNat 8 k) := by
  induction n generalizing a with
  | zero => rfl
  | succ n ih =>
    rw [State.bytesFrom, ih, List.range_succ_eq_map, List.map_cons, List.map_map]
    congr 1
    · simp
    · refine List.map_congr_left fun k _ => ?_
      simp [BitVec.ofNat_add, BitVec.add_assoc, BitVec.add_comm 1#8]

/-- The checksum of all 256 bytes is their sum modulo 256, from whatever address they are dumped. -/
theorem State.toNat_checksum_bytesFrom (s : State) (start : Addr) :
    (checksum (s.bytesFrom start 256)).toNat =
      ((List.range 256).map fun k => (s.memRead (BitVec.ofNat 8 k)).toNat).sum % 256 := by
  have hsum (a : Addr) : ((s.bytesFrom a 256).map BitVec.toNat).sum =
      ((addressesFrom a).map fun b => (s.memRead b).toNat).sum := by
    rw [State.bytesFrom_eq_map, addressesFrom, List.map_map, List.map_map]
    rfl
  have hperm := ((addressesFrom_perm start 0#8).map fun b => (s.memRead b).toNat).sum_eq
  rw [toNat_checksum, hsum, hperm, addressesFrom, List.map_map]
  simp only [Function.comp_def, BitVec.zero_add]

/-! ## The two commands (R263, R265) -/

@[simp] theorem askDumpRange_sent (s : State) (k : Fin 8) : (s.askDumpRange k).2.sent = s.sent := by
  unfold State.askDumpRange
  split <;> rfl

@[simp] theorem askSerialLoad_sent (s : State) (k : Fin 8) :
    (s.askSerialLoad k).2.sent = .serialLoad k :: s.sent := by
  unfold State.askSerialLoad
  dsimp only
  split <;> rfl

/-- A dump sends the bytes of its range as they were before the range was asked for. -/
theorem dumpCommand_of_range {k : Fin 8} {s : State} {start : Addr} {count : Nat}
    (h : (s.askDumpRange k).1 = ⟨start, count⟩) :
    dumpCommand k s = (s.askDumpRange k).2.emit
      (.serialOut (dumpBytes (newlineOf Config.newline) (s.bytesFrom start count))) := by
  obtain ⟨-, hmem, -⟩ := askDumpRange_onlyAsks s k
  simp only [dumpCommand, h, State.bytesFrom_of_mem hmem]

/-- A load that stores all that arrives, whatever its summary counts. -/
theorem serialLoadCommand_of_parse {k : Fin 8} {s : State} {start : Addr} {limit : Nat}
    {chars bytes : List Byte} (h : (s.askSerialLoad k).1 = ⟨start, limit, chars⟩)
    (hparse : parseBytes Config.serialRules chars = bytes) (hlimit : bytes.length ≤ limit) :
    serialLoadCommand k s = ((s.askSerialLoad k).2.memWriteAll (writesFrom start bytes)).emit
      (.serialSummary bytes.length (checksum bytes)) := by
  simp only [serialLoadCommand, h, hparse, List.take_of_length_le hlimit, ite_self]

end Sys2Proof.Machine

namespace Sys2Proof
open Machine

/-- Settles O60: a dump parses to the bytes dumped, the 256 bytes stored again cover the memory, and
their sum does not depend on where they start. -/
theorem serialDumpReloadsExactly : Obligations.SerialDumpReloadsExactly := by
  refine ⟨fun rules newline s u start hnewline => ?_, fun k j s u start hrange => ?_⟩
  · have hparse : parseBytes rules (dumpBytes newline (s.bytesFrom start 256)) =
        s.bytesFrom start 256 :=
      parseBytes_dumpBytes rules (fun c hc => (isDelimiter_iff rules c).mpr (hnewline c hc)) _
    dsimp only
    rw [hparse]
    exact ⟨s.length_bytesFrom start 256, s.memRead_reloaded u start,
      s.toNat_checksum_bytesFrom start⟩
  · have hasks := askDumpRange_onlyAsks s k
    refine ⟨_, dumpBytes (newlineOf Config.newline) (s.bytesFrom start 256),
      congrArg Host.Outcome.next (dumpCommand_of_range hrange), ?_, ?_, ?_, ?_⟩
    · rw [State.emit_sent, askDumpRange_sent]
    · exact hasks.1.trans (State.sameControl_emit _ _)
    · exact hasks.2.1
    · intro limit hlimit hload
      have hloads := askSerialLoad_onlyAsks u j
      have hparse := parseBytes_dumpBytes Config.serialRules
        (newlineOf_isDelimiter Config.newline) (s.bytesFrom start 256)
      have hcommand := serialLoadCommand_of_parse hload hparse
        ((s.length_bytesFrom start 256).trans_le hlimit)
      refine ⟨_, congrArg Host.Outcome.next hcommand, ?_, fun a => ?_, _, ?_,
        s.toNat_checksum_bytesFrom start⟩
      · exact (hloads.1.trans (State.sameControl_memWriteAll _ _)).trans (State.sameControl_emit _ _)
      · rw [State.memRead_emit, State.memRead_reloaded]
      · rw [State.emit_sent, State.memWriteAll_sent, askSerialLoad_sent, State.length_bytesFrom]

end Sys2Proof
end

section
/-! PROOFS. The chord partner, the buttons while halted and while running, and the control byte (spec
61_front_panel.md R256 to R275). -/

namespace Sys2Proof.Machine

/-! ## Which command a button selects (R257)

A partner that the entry does not list, as the hypotheses say, falls to the entry's last case. -/

theorem dispatchHalted_digit_of_ne_stop {partner : Option Button} (h : partner ≠ some .stop)
    (k : Fin 8) (s : State) : dispatchHalted (.digit k) partner s = .next (digitCommand k s) :=
  congrArg Host.Outcome.next (if_neg h)

theorem dispatchHalted_clr_of_ne_stop {partner : Option Button} (h : partner ≠ some .stop)
    (s : State) : dispatchHalted .clr partner s = .next (clearCommand s) :=
  congrArg Host.Outcome.next (if_neg h)

theorem dispatchHalted_start_of_ne_stop {partner : Option Button} (h : partner ≠ some .stop)
    (s : State) : dispatchHalted .start partner s = .next (startCommand s) := if_neg h

theorem dispatchHalted_disp_of_ne_digit {partner : Option Button}
    (h : ∀ k, partner ≠ some (.digit k)) (s : State) :
    dispatchHalted .disp partner s = .next (showCursorCommand s) := by
  simp only [dispatchHalted]

theorem dispatchHalted_set_of_ne_digit {partner : Option Button}
    (h : ∀ k, partner ≠ some (.digit k)) (s : State) :
    dispatchHalted .set partner s = .next (setCursorCommand s) := by
  simp only [dispatchHalted]

theorem dispatchHalted_read_of_ne_digit {partner : Option Button}
    (h : ∀ k, partner ≠ some (.digit k)) (hstop : partner ≠ some .stop) (s : State) :
    dispatchHalted .read partner s = .next (readCommand s) := by
  simp only [dispatchHalted]

theorem dispatchHalted_store_of_ne_digit {partner : Option Button}
    (h : ∀ k, partner ≠ some (.digit k)) (hstop : partner ≠ some .stop)
    (hclr : partner ≠ some .clr) (s : State) :
    dispatchHalted .store partner s = .next (storeCommand s) := by
  simp only [dispatchHalted]

/-! ## The input latch (R258, R259) -/

theorem getLsbD_one_shiftLeft (k : Fin 8) (b : Nat) :
    (1#8 <<< k.val).getLsbD b = decide (b = k.val) := by
  rw [← BitVec.twoPow_eq, BitVec.getLsbD_twoPow]
  simp [eq_comm]

/-- The latch after a digit: its bit flipped in toggle mode, and set without it. -/
theorem getLsbD_digitCommand_latch (k : Fin 8) (s : State) (b : Nat) :
    ((digitCommand k s).memRead addrIN).getLsbD b = if b = k.val then
        (if s.params.toggleMode then !(s.memRead addrIN).getLsbD b else true)
      else (s.memRead addrIN).getLsbD b := by
  have hlatch : (digitCommand k s).memRead addrIN = if s.params.toggleMode
      then s.memRead addrIN ^^^ (1#8 <<< k.val) else s.memRead addrIN ||| (1#8 <<< k.val) :=
    State.memRead_memWrite_same s addrIN _
  rw [hlatch]
  split_ifs with htoggle hb hb
  · rw [BitVec.getLsbD_xor, getLsbD_one_shiftLeft, decide_eq_true hb, Bool.xor_true]
  · rw [BitVec.getLsbD_xor, getLsbD_one_shiftLeft, decide_eq_false hb, Bool.xor_false]
  · rw [BitVec.getLsbD_or, getLsbD_one_shiftLeft, decide_eq_true hb, Bool.or_true]
  · rw [BitVec.getLsbD_or, getLsbD_one_shiftLeft, decide_eq_false hb, Bool.or_false]

/-! ## The system call from the panel (R266) -/

theorem sysReadCommand_eq (s : State) : sysReadCommand s =
    ((sysRead s s.sysIndex).withDisp ((sysRead s s.sysIndex).memRead addrB)).withMode .none := rfl

/-- A read, forwarded or not, leaves the controller's state and every byte but B. -/
theorem sysRead_effect (s : State) (idx : BitVec 7) :
    s.SameControl (sysRead s idx) ∧ ∀ a : Addr, a ≠ addrB → (sysRead s idx).memRead a = s.memRead a := by
  by_cases hprobe : idx = 0x7F#7
  · rw [hprobe, sysRead_of_probe]
    exact ⟨s.sameControl_memWrite _ _, fun a ha => State.memRead_memWrite_of_ne s _ ha⟩
  · refine ⟨?_, fun a ha => ?_⟩
    · rw [sysRead_of_ne_probe s hprobe]
      exact (askCfgRead_onlyAsks s idx).1.trans (State.sameControl_memWrite _ _ _)
    · rw [memRead_sysRead_of_ne_probe s hprobe, if_neg ha]

theorem sysRead_sent_of_ne_probe (s : State) {idx : BitVec 7} (h : idx ≠ 0x7F#7) :
    (sysRead s idx).sent = .cfgRead idx :: s.sent := by
  rw [sysRead_of_ne_probe s h, State.memWrite_sent, askCfgRead_sent]

/-! ## STOP (R270) -/

theorem stopCommand_delay (partner : Option Button) (s : State) :
    (stopCommand partner s).delay = match partner with
      | some (.digit k) => some (BitVec.ofNat 4 k.val)
      | _ => s.delay := by
  cases partner with
  | none => rfl
  | some b => cases b <;> rfl

end Sys2Proof.Machine

namespace Sys2Proof
open Machine

/-- Settles O49: the byte of each mode is written out, but for the intensity of Run. -/
theorem controlByteBits : Obligations.ControlByteBits := by
  intro p mode
  cases mode with
  | input | address | memory | none => simp [controlByte]
  | run =>
    simp only [controlByte]
    generalize p.runIntensity = intensity
    revert intensity
    decide

/-- Settles O54: the two tables have the same entries for a digit, `CLR` and `STOP`, and the running
table leaves the state for every other button. -/
theorem otherButtonsAreIgnoredWhileRunning : Obligations.OtherButtonsAreIgnoredWhileRunning := by
  intro b partner s
  cases b with
  | digit k => exact ⟨fun _ => .inl ⟨k, rfl⟩, fun _ => rfl⟩
  | clr => exact ⟨fun _ => .inr (.inl rfl), fun _ => rfl⟩
  | stop => exact ⟨fun _ => .inr (.inr rfl), fun _ => rfl⟩
  | disp | set | read | store | start => exact ⟨fun hchanged => absurd rfl hchanged, by simp⟩

/-- Settles O55: the chord partner is the first find in the scan order. -/
theorem chordPartnerIsTheFirstHeld : Obligations.ChordPartnerIsTheFirstHeld := by
  intro p held b
  have hskipped (d : Button) : (!(d != b && Params.held p held d)) = true ↔
      d = b ∨ held.getLsbD (p.bitOf d) = false := by
    by_cases hd : d = b <;> simp [hd, Params.held]
  refine ⟨fun c hfound => ?_, fun hnone c hc => ?_⟩
  · obtain ⟨hpartner, before, after, hscan, hbefore⟩ := List.find?_eq_some_iff_append.mp hfound
    obtain ⟨hother, hheld⟩ := Bool.and_eq_true_iff.mp hpartner
    exact ⟨before, after, hscan, bne_iff_ne.mp hother, hheld,
      fun d hd => (hskipped d).mp (hbefore d hd)⟩
  · have hno := List.find?_eq_none.mp hnone c hc
    exact (hskipped c).mp ((Bool.not_eq_true' _).mpr (Bool.eq_false_iff.mpr hno))

/-- Settles O56: a digit stores one byte, the latch with its bit changed, and shows it. -/
theorem digitButtonChangesOneLatchBit : Obligations.DigitButtonChangesOneLatchBit := by
  intro k partner s hpartner
  refine ⟨_, dispatchHalted_digit_of_ne_stop hpartner k s, rfl, ?_, rfl, rfl, rfl,
    fun b _ => getLsbD_digitCommand_latch k s b, fun a ha => ?_⟩
  · exact (State.memRead_memWrite_same s addrIN _).symm
  · exact State.memRead_memWrite_of_ne s _ ha

/-- Settles O57: each of the three commands by its definition. -/
theorem clearCommands : Obligations.ClearCommands := by
  intro partner s
  refine ⟨fun hpartner => ?_, ?_, ?_⟩
  · exact ⟨_, dispatchHalted_clr_of_ne_stop hpartner s, rfl, rfl,
      fun a => State.memRead_memWrite s addrIN a 0#8⟩
  · exact ⟨blankCommand s, rfl, rfl, rfl, rfl⟩
  · exact ⟨clearAllCommand s, rfl, rfl, rfl, rfl, State.memRead_clearAllMemory s⟩

/-- Settles O58: each command by its definition, and the read of the system call by its probe. -/
theorem addressAndMemoryButtons : Obligations.AddressAndMemoryButtons := by
  intro partner s
  refine ⟨fun hdigit => ⟨?_, ?_, fun hstop => ?_, fun hstop hclr => ?_⟩, ?_, ?_⟩
  · exact ⟨_, dispatchHalted_disp_of_ne_digit hdigit s, rfl, rfl, rfl, rfl, rfl⟩
  · exact ⟨_, dispatchHalted_set_of_ne_digit hdigit s, rfl, rfl, rfl, rfl, rfl⟩
  · exact ⟨_, dispatchHalted_read_of_ne_digit hdigit hstop s, rfl, rfl, rfl, rfl, rfl⟩
  · exact ⟨_, dispatchHalted_store_of_ne_digit hdigit hstop hclr s, rfl, rfl, rfl, rfl,
      fun a => State.memRead_memWrite s s.cursor a _⟩
  · obtain ⟨⟨hrun, -, hcursor, -⟩, hframe⟩ := sysRead_effect s s.sysIndex
    refine ⟨_, congrArg Host.Outcome.next (sysReadCommand_eq s), rfl, rfl, hrun, hcursor, hframe,
      fun hprobe => ?_, fun hindex => ⟨?_, ?_⟩⟩
    · rw [hprobe, sysRead_of_probe]
      exact ⟨State.memRead_memWrite_same s addrB 0#8, rfl⟩
    · exact (memRead_sysRead_of_ne_probe s hindex 1#8).trans (if_pos rfl)
    · exact sysRead_sent_of_ne_probe s hindex
  · obtain ⟨hcontrol, hmem, -⟩ := askCfgWrite_onlyAsks s s.sysIndex (s.memRead 1#8)
    exact ⟨sysWriteCommand s, rfl, hcontrol, hmem, askCfgWrite_sent s _ _⟩

/-- Settles O59: `START` and `STOP` by their commands, and the single step, which no instruction lets
reach `run`. -/
theorem runButtons : Obligations.RunButtons := by
  intro partner s
  refine ⟨fun hpartner => ?_, fun u hstep => ?_, ?_⟩
  · exact ⟨_, dispatchHalted_start_of_ne_stop hpartner s, rfl, rfl, rfl⟩
  · have hsingle : dispatchHalted .start (some .stop) s = .next u.showOutput := by
      change andThen (step s) _ = _
      rw [hstep, andThen_next]
    obtain ⟨hrun, -⟩ := exec_sameControl hstep
    exact ⟨_, hsingle, rfl, hrun, rfl, rfl⟩
  · obtain ⟨-, hrun, hmode, hmem, hdisp⟩ := stopCommand_effect partner s
    exact ⟨_, rfl, hrun, hmode, hmem, hdisp, stopCommand_delay partner s⟩

end Sys2Proof
end

section
/-! PROOFS. The controller's main cycle: what a halted cycle without a press leaves, what a running
cycle is, and how a run ends (spec 61_front_panel.md R252 to R256, R277). -/

namespace Sys2Proof.Machine

/-! ## The branches of a cycle (R252) -/

theorem cycle_of_halted {s : State} (h : s.run = false) :
    cycle s = andThen (cycleHalted s) fun u => .next u.rendered := by
  simp [cycle, h]

theorem cycle_of_running {s : State} (h : s.run = true) :
    cycle s = andThen (cycleRunning s) fun u => .next u.rendered := by
  simp [cycle, h]

/-- A running cycle whose presses ended the run is the presses and the render. -/
theorem cycle_of_stopped {s : State} (h : s.run = true) (hstopped : s.sampleRunning.run = false) :
    cycle s = .next s.sampleRunning.rendered := by
  simp [cycle_of_running h, cycleRunning, hstopped]

/-- A running cycle whose presses did not end the run is the presses, one step and the render. -/
theorem cycle_of_step {s : State} (h : s.run = true) (hrunning : s.sampleRunning.run = true) :
    cycle s = andThen (step s.sampleRunning) fun u => .next u.afterStep.rendered := by
  rw [cycle_of_running h, cycleRunning, if_pos hrunning]
  cases step s.sampleRunning <;> rfl

/-- The render changes nothing but what was sent. -/
theorem State.rendered_effect (s : State) : s.SameControl s.rendered ∧ s.rendered.mem = s.mem ∧
    s.rendered.keep = s.keep ∧
    s.rendered.sent = .render s.disp (controlByte s.params s.mode) :: s.sent :=
  ⟨s.sameControl_emit _, rfl, rfl, rfl⟩

/-- A halted cycle whose sample disagrees or presses nothing dispatches nothing (R255). -/
theorem cycleHalted_of_no_press {s : State}
    (h : ∀ sm, (s.askSample true).1 = some sm → newPresses s.params sm = []) :
    cycleHalted s = .next (s.askSample true).2 := by
  unfold cycleHalted
  split
  · rfl
  · rename_i sm hsample
    rw [h sm hsample]
    rfl

/-! ## The presses of a running cycle (R271) -/

/-- No press changes the parameters, so every partner is found with those of the cycle's start. -/
theorem pressesRunning_eq_foldl (held : BitVec 16) (presses : List Button) (s : State) (p : Params)
    (hp : s.params = p) :
    pressesRunning held presses s =
      presses.foldl (fun v b => dispatchRunning b (chordPartner p held b) v) s := by
  induction presses generalizing s with
  | nil => rfl
  | cons b rest ih =>
    rw [pressesRunning, List.foldl_cons, hp]
    exact ih _ ((dispatchRunning_effect b _ s).1.1.trans hp)

theorem pressesRunning_append (held : BitVec 16) (before after : List Button) (s : State) :
    pressesRunning held (before ++ after) s =
      pressesRunning held after (pressesRunning held before s) := by
  induction before generalizing s with
  | nil => rfl
  | cons b rest ih => exact ih _

/-- Only a digit and `CLR` take the display out of Run mode. -/
theorem pressesRunning_mode_run {held : BitVec 16} {presses : List Button} {s : State}
    (hdigit : ∀ k, .digit k ∉ presses) (hclr : .clr ∉ presses) (h : s.mode = .run) :
    (pressesRunning held presses s).mode = .run := by
  induction presses generalizing s with
  | nil => exact h
  | cons b rest ih =>
    refine ih (fun k hk => hdigit k (List.mem_cons_of_mem b hk))
      (fun hmem => hclr (List.mem_cons_of_mem b hmem)) ?_
    cases b with
    | digit k => exact absurd List.mem_cons_self (hdigit k)
    | clr => exact absurd List.mem_cons_self hclr
    | stop => exact (stopCommand_effect _ s).2.2.1
    | disp | set | read | store | start => exact h

/-- What the presses of a running cycle leave of the cycle's start. -/
theorem sampleRunning_effect {s : State} {sm : Sample} (h : (s.askSample false).1 = some sm) :
    SamePressed s s.sampleRunning ∧
    (.stop ∉ newPresses s.params sm →
      s.sampleRunning.run = s.run ∧ s.sampleRunning.delay = s.delay) ∧
    (.stop ∈ newPresses s.params sm → s.sampleRunning.run = false) := by
  have hasks := askSample_onlyAsks s false
  obtain ⟨hsame, hkept, hstopped⟩ :=
    pressesRunning_effect sm.state (newPresses s.params sm) (s.askSample false).2
  rw [← State.sampleRunning_of_some h] at hsame hkept hstopped
  obtain ⟨⟨hrun, -, -, hdelay, -⟩, -⟩ := id hasks
  refine ⟨hasks.samePressed.trans hsame, fun hno => ?_, fun hmem => hstopped (.inl hmem)⟩
  obtain ⟨hrun', hdelay'⟩ := hkept hno
  exact ⟨hrun'.trans hrun, hdelay'.trans hdelay⟩

/-! ## What follows the step (R253, R254, R277) -/

/-- The cycle delay changes nothing but what was asked, unless its sleep is aborted; then the run ends in
Run mode. -/
theorem State.cycleDelay_effect (s : State) :
    s.cycleDelay.mem = s.mem ∧ s.cycleDelay.disp = s.disp ∧ s.cycleDelay.cursor = s.cursor ∧
    s.cycleDelay.delay = s.delay ∧ (s.mode = .run → s.cycleDelay.mode = .run) ∧
    s.cycleDelay.run = (s.run && match s.delay with
      | none => true
      | some d => (s.askSleep (2 ^ d.toNat)).1) := by
  unfold State.cycleDelay
  cases hdelay : s.delay with
  | none => exact ⟨rfl, rfl, rfl, hdelay, id, (Bool.and_true _).symm⟩
  | some d =>
    obtain ⟨⟨hrun, hmode, hcursor, hsame, hdisp, -⟩, hmem, -⟩ := askSleep_onlyAsks s (2 ^ d.toNat)
    dsimp only
    cases (s.askSleep (2 ^ d.toNat)).1 with
    | true =>
      exact ⟨hmem, hdisp, hcursor, hsame.trans hdelay, hmode.trans, hrun.trans (Bool.and_true _).symm⟩
    | false =>
      exact ⟨hmem, hdisp, hcursor, hsame.trans hdelay, fun _ => rfl, (Bool.and_false _).symm⟩

/-- After a step the output latch is shown in Run mode, and the run goes on where the step kept running
and the cycle delay, if there is one, was not aborted. -/
theorem State.afterStep_effect (u : State) :
    u.afterStep.mem = u.mem ∧ u.afterStep.disp = u.memRead 128#8 ∧ u.afterStep.mode = .run ∧
    u.afterStep.cursor = u.cursor ∧ u.afterStep.delay = u.delay ∧
    u.afterStep.run = (u.keep && (u.run && match u.delay with
      | none => true
      | some d => (u.showOutput.askSleep (2 ^ d.toNat)).1)) := by
  unfold State.afterStep
  cases u.keep with
  | false => exact ⟨rfl, rfl, rfl, rfl, rfl, rfl⟩
  | true =>
    obtain ⟨hmem, hdisp, hcursor, hdelay, hmode, hrun⟩ := u.showOutput.cycleDelay_effect
    exact ⟨hmem, hdisp, hmode rfl, hcursor, hdelay, hrun⟩

/-! ## The order of the presses (R256) -/

theorem Params.bitOf_of_buttonAt {p : Params} {bit : Nat} {b : Button}
    (h : Params.buttonAt p bit = some b) : p.bitOf b = bit := by
  simpa using List.find?_some h

/-- New presses come in ascending `BTN_BIT`. -/
theorem newPresses_pairwise (p : Params) (sm : Sample) :
    (newPresses p sm).Pairwise fun b c => p.bitOf b < p.bitOf c := by
  have hbit : ∀ {bit : Nat} {b : Button},
      (if (sm.newly &&& sm.state).getLsbD bit then Params.buttonAt p bit else none) = some b →
        p.bitOf b = bit := by
    intro bit b h
    split at h
    · exact Params.bitOf_of_buttonAt h
    · exact absurd h nofun
  refine List.Pairwise.filterMap _ (fun i j hij b hb c hc => ?_) List.pairwise_lt_range
  rw [hbit hb, hbit hc]
  exact hij

/-- A button dispatched after `STOP` has its bit above that of `STOP`. -/
theorem bitOf_stop_lt_of_mem_after {p : Params} {sm : Sample} {before after : List Button}
    (h : newPresses p sm = before ++ .stop :: after) {b : Button} (hb : b ∈ after) :
    p.bitOf .stop < p.bitOf b := by
  have hordered := newPresses_pairwise p sm
  rw [h] at hordered
  exact List.rel_of_pairwise_cons (List.pairwise_append.mp hordered).2.1 hb

/-! ## How a run ends (R254) -/

/-- The display mode when a run ends: that of Run, but for a digit or `CLR` after `STOP`. -/
theorem mode_of_endsRun {s t : State} (h : EndsRun s t) :
    t.mode = .run ∨ ∃ sm before after, (s.askSample false).1 = some sm ∧
      newPresses s.params sm = before ++ .stop :: after ∧
      ((∃ k, .digit k ∈ after) ∨ .clr ∈ after) := by
  obtain ⟨hrun, hcycle, hended⟩ := h
  cases hpressed : s.sampleRunning.run with
  | true =>
    rw [cycle_of_step hrun hpressed] at hcycle
    obtain ⟨u, -, hnext⟩ := andThen_eq_next.mp hcycle
    obtain ⟨-, -, hmode, -⟩ := u.afterStep_effect
    obtain rfl := Host.Outcome.next.inj hnext
    exact .inl hmode
  | false =>
    rw [cycle_of_stopped hrun hpressed] at hcycle
    obtain rfl := Host.Outcome.next.inj hcycle
    cases hsample : (s.askSample false).1 with
    | none =>
      have hsame : s.sampleRunning = (s.askSample false).2 := by
        unfold State.sampleRunning
        rw [hsample]
      obtain ⟨⟨hkept, -⟩, -⟩ := askSample_onlyAsks s false
      rw [hsame, hkept, hrun] at hpressed
      exact absurd hpressed (by decide)
    | some sm =>
      obtain ⟨-, hkept, -⟩ := sampleRunning_effect hsample
      have hstop : .stop ∈ newPresses s.params sm := by
        by_contra hno
        rw [(hkept hno).1, hrun] at hpressed
        exact absurd hpressed (by decide)
      obtain ⟨before, after, hsplit⟩ := List.append_of_mem hstop
      by_cases hlater : (∃ k, .digit k ∈ after) ∨ .clr ∈ after
      · exact .inr ⟨sm, before, after, rfl, hsplit, hlater⟩
      · rw [not_or, not_exists] at hlater
        obtain ⟨hdigit, hclr⟩ := hlater
        have hpresses := State.sampleRunning_of_some hsample
        rw [hsplit, pressesRunning_append] at hpresses
        have hmode : s.sampleRunning.mode = .run := by
          rw [hpresses]
          exact pressesRunning_mode_run (presses := after) hdigit hclr (stopCommand_effect _ _).2.2.1
        exact .inl hmode

end Sys2Proof.Machine

namespace Sys2Proof
open Machine

/-- Settles O48: the last thing a cycle does is the render. -/
theorem everyCycleEndsWithARender : Obligations.EveryCycleEndsWithARender := by
  intro s t hcycle
  obtain ⟨u, -, hrendered⟩ := andThen_eq_next.mp hcycle
  obtain rfl := Host.Outcome.next.inj hrendered
  exact ⟨u.sent, u.rendered_effect.2.2.2⟩

/-- Settles O50: such a cycle is the sample's request and the render. -/
theorem haltedCycleWithoutPressOnlyRenders : Obligations.HaltedCycleWithoutPressOnlyRenders := by
  intro s hhalted hpress
  have hcycle : cycle s = .next (s.askSample true).2.rendered := by
    rw [cycle_of_halted hhalted, cycleHalted_of_no_press hpress, andThen_next]
  obtain ⟨hcontrol, hmem, hkeep⟩ := askSample_onlyAsks s true
  obtain ⟨hcontrol', hmem', hkeep', hsent⟩ := (s.askSample true).2.rendered_effect
  refine ⟨_, hcycle, hcontrol.trans hcontrol', hmem'.trans hmem, hkeep'.trans hkeep, ?_⟩
  obtain ⟨-, hmode, -, -, hdisp, hparams⟩ := hcontrol
  rw [hsent, hdisp, hparams, hmode, askSample_sent]

/-- Settles O51: the presses are a fold over the sample's list, and without `STOP` they leave the run,
the cursor and the delay for the step, which does not reach them. -/
theorem runningCycleIsOneStep : Obligations.RunningCycleIsOneStep := by
  intro s u sm hrun hsample
  refine ⟨?_, fun hno hstep => ?_⟩
  · rw [State.sampleRunning_of_some hsample]
    exact pressesRunning_eq_foldl _ _ _ _ (askSample_onlyAsks s false).1.params
  · obtain ⟨⟨-, -, hcursor⟩, hkept, -⟩ := sampleRunning_effect hsample
    obtain ⟨hrun', hdelay⟩ := hkept hno
    obtain ⟨hrun'', -, hcursor', hdelay', -⟩ := exec_sameControl hstep
    have hurun : u.run = true := hrun''.trans (hrun'.trans hrun)
    have hudelay : u.delay = s.delay := hdelay'.trans hdelay
    have hcycle : cycle s = .next u.afterStep.rendered := by
      rw [cycle_of_step hrun (hrun'.trans hrun), hstep, andThen_next]
    obtain ⟨hmem, hdisp, hmode, hucursor, hsame, hgoes⟩ := u.afterStep_effect
    refine ⟨_, hcycle, hmem, hdisp, hmode, hucursor.trans (hcursor'.trans hcursor),
      hsame.trans hudelay, hgoes.trans ?_⟩
    rw [hudelay, hurun]
    cases s.delay <;> rfl

/-- Settles O52: `STOP` clears `run`, no later press sets it, and the cycle looks at it before it
steps. -/
theorem stopEndsTheRunWithoutAStep : Obligations.StopEndsTheRunWithoutAStep := by
  intro s sm hrun hsample hstop
  obtain ⟨⟨-, hkeep, -⟩, -, hended⟩ := sampleRunning_effect hsample
  refine ⟨_, cycle_of_stopped hrun (hended hstop), rfl, hended hstop, rfl, hkeep, fun halone => ?_⟩
  obtain ⟨⟨-, -, -, -, hdisp, -⟩, hmem, -⟩ := askSample_onlyAsks s false
  have hpresses := State.sampleRunning_of_some hsample
  rw [halone] at hpresses
  obtain ⟨-, -, hmode, hmem', hdisp'⟩ := stopCommand_effect
    (chordPartner (s.askSample false).2.params sm.state .stop) (s.askSample false).2
  rw [hpresses]
  exact ⟨hmode, hmem'.trans hmem, hdisp'.trans hdisp⟩

/-- Settles O53: the step's end and `STOP` both show Run mode, and what is dispatched after `STOP` has
its bit above. -/
theorem runEndsInRunMode : Obligations.RunEndsInRunMode := by
  intro s t hends
  refine ⟨mode_of_endsRun hends, fun hhighest => ?_⟩
  rcases mode_of_endsRun hends with hmode | ⟨sm, before, after, -, hsplit, hlater⟩
  · exact hmode
  · have hnone : ∀ b, b ∉ after := fun b hb =>
      absurd (hhighest b) (Nat.not_le.mpr (bitOf_stop_lt_of_mem_after hsplit hb))
    rcases hlater with ⟨k, hk⟩ | hclr
    · exact absurd hk (hnone _)
    · exact absurd hclr (hnone _)

end Sys2Proof
end
